-- ==== Sys2Proof/Config.lean ====
section
/-!
DEFINITION. The constants of the hardware (spec/00_scope.md R1, R5, R6). They are compile-time constants: no register
holds them and no command reads or writes them (R5, D16). No free value is needed: no rule of the spec leaves a
result open (R10, item 6).
-/

namespace Sys2Proof.Config

/-- R1: the configuration string. -/
def configuration : String := "IDEA-128/64-R8"

/-- R5, W: width in bits of a word, a subkey and every intermediate value. -/
abbrev wordBits : Nat := 16

/-- R5, KEY_BYTES. -/
abbrev keyBytes : Nat := 16

/-- R5, BLOCK_BYTES. -/
abbrev blockBytes : Nat := 8

/-- R5, ROUNDS. -/
abbrev rounds : Nat := 8

/-- R5, NSUB: `ROUNDS * 6 + 4`. -/
abbrev numSubkeys : Nat := 52

/-- R5, MOD_ADD: modulus of the additive group. -/
abbrev modAdd : Nat := 65536

/-- R5, MOD_MUL: modulus of the multiplicative group, a prime. -/
abbrev modMul : Nat := 65537

/-- R6, CW_W: width in bits of the command word. -/
abbrev cwBits : Nat := 8

/-- R6, LEN_W: width in bits of the length and offset fields of a request (DESIGN CHOICE, log 5: the spec's default). -/
abbrev lenBits : Nat := 8

/-- R6, ST_W: width in bits of the response status. -/
abbrev stBits : Nat := 2

/-- R6: the greatest payload length the field `n` can say. -/
abbrev maxPayload : Nat := 2 ^ lenBits - 1

end Sys2Proof.Config
end

