-- ==== Sys2Proof/Word.lean ====
section
/-!
DEFINITION. Words, bytes and the plain records of them that the rules pass around (spec/00_scope.md R7; the operand and
result shapes of spec/30_encoding.md R63).
-/

namespace Sys2Proof

/-- R7: a word is 16 bits, unsigned, bit 15 the most significant. -/
abbrev Word := BitVec 16

/-- R7: a byte is 8 bits, unsigned, bit 7 the most significant. -/
abbrev Byte := BitVec 8

/-- R102: sixteen key bytes, index 0 first. -/
abbrev Key := Vector Byte 16

/-- R12, "the fixed 8-byte unit the cipher transforms in one invocation". -/
abbrev Block := Vector Byte 8

/-- R20, R21: a subkey schedule, 52 words, index 0 first. -/
abbrev Schedule := Vector Word 52

/-- The four data words of ROUND and OUTT (R120, R123). -/
structure Quad where
  x0 : Word
  x1 : Word
  x2 : Word
  x3 : Word
  deriving DecidableEq, Repr

/-- The six subkeys of one round (R20, R120). -/
structure RoundKeys where
  k0 : Word
  k1 : Word
  k2 : Word
  k3 : Word
  k4 : Word
  k5 : Word
  deriving DecidableEq, Repr

/-- The four subkeys of the output transformation (R20, R123). -/
structure OutKeys where
  k0 : Word
  k1 : Word
  k2 : Word
  k3 : Word
  deriving DecidableEq, Repr

end Sys2Proof
end

