-- ==== Sys2Proof/Syntax.lean ====
section
/-!
DEFINITION. The instructions: one constructor per row of spec/opcode_table.json. A host command carries the fields of its
request but the command word (spec/30_encoding.md R60; the length field `n` is the payload's length). A unit operation
carries its inputs (R63): it is a name for an internal function of the core, never valid in a request (R71).
-/

namespace Sys2Proof

inductive Instr where
  /-- 0x00, R137. -/
  | encrypt (off : Byte) (payload : List Byte)
  /-- 0x01, R139. -/
  | decrypt (off : Byte) (payload : List Byte)
  /-- 0x02, R135; `off` is a field of the request and is ignored (R72). -/
  | loadKey (off : Byte) (payload : List Byte)
  /-- 0x80, R80. -/
  | add (a b : Word)
  /-- 0x81, R81. -/
  | addInv (a : Word)
  /-- 0x82, R82. -/
  | mul (a b : Word)
  /-- 0x83, R85. -/
  | mulInv (a : Word)
  /-- 0x84, R88. -/
  | xor (a b : Word)
  /-- 0x85, R89. -/
  | copy (a : Word)
  /-- 0x86, R100. -/
  | pack16 (hi lo : Byte)
  /-- 0x87, R126. -/
  | unpack16 (v : Word)
  /-- 0x88, R102. -/
  | kexp (key : Key)
  /-- 0x89, R110. -/
  | kinv (e : Schedule)
  /-- 0x8A, R120. -/
  | round (x : Quad) (k : RoundKeys)
  /-- 0x8B, R123. -/
  | outt (x : Quad) (k : OutKeys)
  /-- 0x8C, R127. -/
  | crypt (blk : Block) (sched : Schedule)
  deriving DecidableEq, Repr

end Sys2Proof
end

