-- ==== Sys2Proof/WellFormed.lean ====
section
/-!
DEFINITION. Which instructions the encoding can write (spec/30_encoding.md R60, spec/00_scope.md R6): the length field `n`
of a request has 8 bits, so a payload has at most 255 bytes. Every other operand is bounded by its type.
-/

namespace Sys2Proof

/-- R40, R60: `0 <= n <= 255`. -/
def payloadFits (payload : List Byte) : Bool := payload.length ≤ Config.maxPayload

/-- The check, one arm per constructor. -/
def Instr.wellFormed : Instr → Bool
  | .encrypt _ payload => payloadFits payload
  | .decrypt _ payload => payloadFits payload
  | .loadKey _ payload => payloadFits payload
  | .add _ _ => true
  | .addInv _ => true
  | .mul _ _ => true
  | .mulInv _ => true
  | .xor _ _ => true
  | .copy _ => true
  | .pack16 _ _ => true
  | .unpack16 _ => true
  | .kexp _ => true
  | .kinv _ => true
  | .round _ _ => true
  | .outt _ _ => true
  | .crypt _ _ => true

end Sys2Proof
end

