-- ==== Sys2Proof/Decode.lean ====
section
/-!
DEFINITION. The map of the 8-bit command word (spec/30_encoding.md R61 to R63, R70), the decoder of requests (R60, R71, R73),
the request header (R60), the encoder written from the same tables, and the host's `decodeTableWord`.
-/

namespace Sys2Proof

/-- The names of the opcode table's rows. -/
inductive Op where
  | encrypt | decrypt | loadKey
  | add | addInv | mul | mulInv | xor | copy | pack16 | unpack16 | kexp | kinv | round | outt | crypt
  deriving DecidableEq, Repr

/-- One row of spec/opcode_table.json: a word `cw` is the row's when `cw AND mask = match`. -/
structure OpcodeRow where
  op : Op
  mask : Byte
  value : Byte
  deriving DecidableEq, Repr

/-- R62, R63, R70: the whole table; all eight bits are decoded. -/
def opcodeTable : List OpcodeRow :=
  [⟨.encrypt, 0xFF, 0x00⟩, ⟨.decrypt, 0xFF, 0x01⟩, ⟨.loadKey, 0xFF, 0x02⟩,
   ⟨.add, 0xFF, 0x80⟩, ⟨.addInv, 0xFF, 0x81⟩, ⟨.mul, 0xFF, 0x82⟩, ⟨.mulInv, 0xFF, 0x83⟩,
   ⟨.xor, 0xFF, 0x84⟩, ⟨.copy, 0xFF, 0x85⟩, ⟨.pack16, 0xFF, 0x86⟩, ⟨.unpack16, 0xFF, 0x87⟩,
   ⟨.kexp, 0xFF, 0x88⟩, ⟨.kinv, 0xFF, 0x89⟩, ⟨.round, 0xFF, 0x8A⟩, ⟨.outt, 0xFF, 0x8B⟩,
   ⟨.crypt, 0xFF, 0x8C⟩]

def OpcodeRow.covers (r : OpcodeRow) (cw : Byte) : Bool := cw &&& r.mask == r.value

/-- R70: the row of a command word, none for a reserved one. -/
def lookupOp (cw : Byte) : Option Op := (opcodeTable.find? (·.covers cw)).map (·.op)

/-- R61: `cls = cw[7:4]`. -/
def cwClass (cw : Byte) : BitVec 4 := cw.extractLsb' 4 4

/-- R61: `fn = cw[3:0]`. -/
def cwFunction (cw : Byte) : BitVec 4 := cw.extractLsb' 0 4

/-- R61, R69: bit 0 of a block command's word is the direction flag, 0 for encrypt and 1 for decrypt. -/
def cwDirection (cw : Byte) : Bool := cw.getLsbD 0

/-- What a request reads as. -/
inductive Decoded where
  /-- A host command, and the bytes that follow its request. -/
  | command (i : Instr) (rest : List Byte)
  /-- R71: the command word names a unit operation, which is not a command. -/
  | unitName (cw : Byte)
  /-- R71: the command word is reserved. -/
  | reserved (cw : Byte)
  /-- The bytes end before the request does (R143 (1) forbids the host to send that). -/
  | incomplete
  deriving DecidableEq, Repr

/-- The host command of a row from its `off` and payload; none for a unit row (R63: not a command). -/
def hostCommand (o : Op) (off : Byte) (payload : List Byte) : Option Instr :=
  match o with
  | .encrypt => some (.encrypt off payload)
  | .decrypt => some (.decrypt off payload)
  | .loadKey => some (.loadKey off payload)
  | .add | .addInv | .mul | .mulInv | .xor | .copy | .pack16 | .unpack16
  | .kexp | .kinv | .round | .outt | .crypt => none

/-- R60, R73: the fields after the command word: `off`, `n`, then `n` payload bytes. -/
def decodeFields (o : Op) (cw : Byte) : List Byte → Decoded
  | off :: n :: body =>
    if body.length < n.toNat then .incomplete
    else
      match hostCommand o off (body.take n.toNat) with
      | some i => .command i (body.drop n.toNat)
      | none => .unitName cw
  | _ => .incomplete

/-- R70, R71, R158: decoding a request. The command word is looked at first, before any other field. -/
def decodeRequest : List Byte → Decoded
  | [] => .incomplete
  | cw :: fields =>
    match lookupOp cw with
    | none => .reserved cw
    | some o => if cwClass cw = 0 then decodeFields o cw fields else .unitName cw

/-! ### The request header -/

/-- R60: the parallel header of a request, `hdr = {cw, off, n}`. -/
def requestHeader (cw off n : Byte) : BitVec 24 := cw ++ off ++ n

/-- R60: `cw = hdr[23:16]`. -/
def headerCw (hdr : BitVec 24) : Byte := hdr.extractLsb' 16 8

/-- R60: `off = hdr[15:8]`. -/
def headerOff (hdr : BitVec 24) : Byte := hdr.extractLsb' 8 8

/-- R60: `n = hdr[7:0]`. -/
def headerLength (hdr : BitVec 24) : Byte := hdr.extractLsb' 0 8

/-- R60: bytes 0 to 2 of the byte string form, from the header. -/
def headerBytes (hdr : BitVec 24) : List Byte := [headerCw hdr, headerOff hdr, headerLength hdr]

/-- R60: decoding a request given as a parallel header followed by the payload. -/
def decodeParallel (hdr : BitVec 24) (payload : List Byte) : Decoded := decodeRequest (headerBytes hdr ++ payload)

/-! ### The encoder -/

/-- The row an instruction stands for. -/
def Instr.op : Instr → Op
  | .encrypt _ _ => .encrypt
  | .decrypt _ _ => .decrypt
  | .loadKey _ _ => .loadKey
  | .add _ _ => .add
  | .addInv _ => .addInv
  | .mul _ _ => .mul
  | .mulInv _ => .mulInv
  | .xor _ _ => .xor
  | .copy _ => .copy
  | .pack16 _ _ => .pack16
  | .unpack16 _ => .unpack16
  | .kexp _ => .kexp
  | .kinv _ => .kinv
  | .round _ _ => .round
  | .outt _ _ => .outt
  | .crypt _ _ => .crypt

/-- The code of a row (R62, R63). -/
def Op.code : Op → Byte
  | .encrypt => 0x00
  | .decrypt => 0x01
  | .loadKey => 0x02
  | .add => 0x80
  | .addInv => 0x81
  | .mul => 0x82
  | .mulInv => 0x83
  | .xor => 0x84
  | .copy => 0x85
  | .pack16 => 0x86
  | .unpack16 => 0x87
  | .kexp => 0x88
  | .kinv => 0x89
  | .round => 0x8A
  | .outt => 0x8B
  | .crypt => 0x8C

/-- R60: the byte string of a request, `cw, off, n, b[0..n-1]`. -/
def requestBytes (cw off : Byte) (payload : List Byte) : List Byte :=
  cw :: off :: BitVec.ofNat 8 payload.length :: payload

/-- The bytes of an instruction. A unit row is its code alone: its inputs have no bits (R63, format UNIT). -/
def encode (i : Instr) : List Byte :=
  match i with
  | .encrypt off payload => requestBytes i.op.code off payload
  | .decrypt off payload => requestBytes i.op.code off payload
  | .loadKey off payload => requestBytes i.op.code off payload
  | .add _ _ => [i.op.code]
  | .addInv _ => [i.op.code]
  | .mul _ _ => [i.op.code]
  | .mulInv _ => [i.op.code]
  | .xor _ _ => [i.op.code]
  | .copy _ => [i.op.code]
  | .pack16 _ _ => [i.op.code]
  | .unpack16 _ => [i.op.code]
  | .kexp _ => [i.op.code]
  | .kinv _ => [i.op.code]
  | .round _ _ => [i.op.code]
  | .outt _ _ => [i.op.code]
  | .crypt _ _ => [i.op.code]

/-- R74: the one pseudo-command, `CRYPT <dir>`: ENCRYPT when `dir` is 0, DECRYPT when it is 1. -/
def pseudoCrypt (dir : Bool) (off : Byte) (payload : List Byte) : Instr :=
  if dir then .decrypt off payload else .encrypt off payload

/-! ### The opcode table's words -/

/-- A unit row as an instruction, every input zero: the table gives a unit row's inputs no bits. -/
def unitRow (o : Op) : Option Instr :=
  match o with
  | .encrypt | .decrypt | .loadKey => none
  | .add => some (.add 0 0)
  | .addInv => some (.addInv 0)
  | .mul => some (.mul 0 0)
  | .mulInv => some (.mulInv 0)
  | .xor => some (.xor 0 0)
  | .copy => some (.copy 0)
  | .pack16 => some (.pack16 0 0)
  | .unpack16 => some (.unpack16 0)
  | .kexp => some (.kexp (Vector.replicate 16 0))
  | .kinv => some (.kinv (Vector.replicate 52 0))
  | .round => some (.round ⟨0, 0, 0, 0⟩ ⟨0, 0, 0, 0, 0, 0⟩)
  | .outt => some (.outt ⟨0, 0, 0, 0⟩ ⟨0, 0, 0, 0⟩)
  | .crypt => some (.crypt (Vector.replicate 8 0) (Vector.replicate 52 0))

/-- Byte `k` of an instruction is bits `8k + 7` to `8k` of the table's number, for the first `nbits` bits, and zero
above them. The table numbers bits from the first byte up, so this number is not `hdr` of R60, which has `cw` on top. -/
def tableByte (nbits w k : Nat) : Byte := if 8 * k < nbits then BitVec.ofNat 8 (w >>> (8 * k)) else 0

/-- The one request of which `w` is the first `nbits` bits: `3 + n` bytes, `n` read from byte 2 (R73). -/
def tableBytes (nbits w : Nat) : List Byte :=
  (List.range (3 + (tableByte nbits w 2).toNat)).map (tableByte nbits w)

/-- The instruction the decoder reads from a word of the opcode table. -/
def decodeTableWord (nbits w : Nat) : Option Instr :=
  match decodeRequest (tableBytes nbits w) with
  | .command i _ => some i
  | .unitName cw => (lookupOp cw).bind unitRow
  | .reserved _ => none
  | .incomplete => none

end Sys2Proof
end

