-- ==== Sys2Proof/Machine/State.lean ====
section
/-!
DEFINITION. The state of the machine (spec/10_state.md) and of its boundary (spec/30_encoding.md R60, R64), the reasons a step
can stop, and the state after reset (R32).
-/

namespace Sys2Proof.Machine

/-- `EK`, `DK` and `KV` (R20, R21, R24). `KV = 1` says that `EK` and `DK` hold the schedules of a key, `KV = 0` that they
hold no value (R24); so the flag is which constructor this is, and the two schedules stand in one of them only. R32: a
model gives `EK` and `DK` no value after reset, by "an option type, or a state constructor without schedules", and
"must not choose zero". Log 1. -/
inductive Engine where
  /-- `KV = 0`; `EK` and `DK` hold no value. -/
  | noKey
  /-- `KV = 1`; `EK` and `DK` hold the schedules of a key. -/
  | keyed (ek dk : Schedule)
  deriving DecidableEq, Repr

/-- R150: the status of a response. -/
inductive Status where
  | ok
  | invalidKeyLength
  | invalidBlockLength
  | keyNotLoaded
  deriving DecidableEq, Repr

/-- R64: a response, its status and, only for a block command with status OK, 8 result bytes. -/
structure Response where
  status : Status
  result : Option Block
  deriving DecidableEq, Repr

/-- What the host does at the core's port (R10 item 8): it sends requests, and it may reset the core. -/
inductive PortEvent where
  /-- Bytes of zero or more whole requests, one after another (R60, R73). -/
  | bytes (bs : List Byte)
  /-- R170, R172: reset, and the bytes of the request whose command it interrupts (none when the core is idle). -/
  | reset (inFlight : List Byte)
  deriving DecidableEq, Repr

/-- The outputs of a unit operation executed on its own, in the shapes of R63. -/
inductive UnitOut where
  | none
  | word (v : Word)
  | bytes (hi lo : Byte)
  | quad (x : Quad)
  | schedule (z : Schedule)
  | block (o : Block)
  deriving DecidableEq, Repr

/-- The whole state. `engine` is all the spec gives the core (R25, R32). `port` and `responses` are its boundary, as
lists (log 2). `unitOut` is the model's own (log 3): R63 gives a unit operation outputs and no place for them; no
definition of the model reads it. -/
structure State where
  engine : Engine
  port : List PortEvent
  responses : List Response
  unitOut : UnitOut
  deriving DecidableEq, Repr

/-- Reasons the machine stops with no effect given by the spec. -/
inductive Fault where
  /-- Raised by `step` when the port holds a part of a request: R143 (1) lets the host send a request only as a whole,
  and U7 calls a host that breaks this `stuck`. Safe: the model has no step where the spec gives none. Log 4. -/
  | incompleteRequest
  deriving DecidableEq, Repr

/-- Reasons there is no meaning. -/
inductive Refusal where
  /-- Raised by an arm of `exec` whose instruction has no meaning yet; no arm raises it. Safe. -/
  | notModelled (mnemonic : String)
  /-- Raised by `step` for a request whose command word is reserved (R71, U5). Safe: the hardware gives no response. -/
  | reservedCommandWord (cw : Byte)
  /-- Raised by `step` for a request whose command word names a unit operation (R71, U5). Safe, as above. -/
  | unitNameInRequest (cw : Byte)
  deriving DecidableEq, Repr

/-- R32, R170: after reset `KV = 0`, `EK` and `DK` hold no value, and the core is idle. The empty boundary lists and
`unitOut` are DESIGN CHOICES (log 2, log 3). -/
def State.reset : State := { engine := .noKey, port := [], responses := [], unitOut := .none }

end Sys2Proof.Machine
end

