-- ==== Sys2Proof/Machine/Flags.lean ====
section
/-!
DEFINITION. The one flag of the hardware, `KV` (spec/10_state.md R24: there are no condition codes), the registers it guards,
and the status codes of a response (spec/60_exceptions.md R150).
-/

namespace Sys2Proof.Machine

/-- R24: the key-valid flag. -/
def State.kv (s : State) : Bool :=
  match s.engine with
  | .noKey => false
  | .keyed _ _ => true

/-- R20, R32: `EK`, which holds a value only when `KV = 1`. -/
def State.ek (s : State) : Option Schedule :=
  match s.engine with
  | .noKey => none
  | .keyed e _ => some e

/-- R21, R32: `DK`, which holds a value only when `KV = 1`. -/
def State.dk (s : State) : Option Schedule :=
  match s.engine with
  | .noKey => none
  | .keyed _ d => some d

/-- R150: the value of `st`. -/
def statusCode : Status → BitVec 2
  | .ok => 0
  | .invalidKeyLength => 1
  | .invalidBlockLength => 2
  | .keyNotLoaded => 3

end Sys2Proof.Machine
end

