-- ==== Sys2Proof/Machine/Operands.lean ====
section
/-!
DEFINITION. How operands are assembled: bytes into words and back (R41, R42, R100, R126), the group element a word stands for
(R8), the subkeys of a round (R20), the key and block operands of a request (R67, R68), and the schedule the direction
flag selects (R69).
-/

namespace Sys2Proof.Machine

/-! ### Words and bytes -/

/-- R100: `pack16(hi, lo) = (hi << 8) | lo`. -/
def pack16 (hi lo : Byte) : Word := (hi.setWidth 16 <<< 8) ||| lo.setWidth 16

/-- R126: `v[15:8]`. -/
def hiByte (v : Word) : Byte := v.extractLsb' 8 8

/-- R126: `v[7:0]`. -/
def loByte (v : Word) : Byte := v.extractLsb' 0 8

/-- R41: `MemRead(addr, 2)` of a payload; partial, and no rule reads at or beyond `n`. -/
def memRead (b : List Byte) (addr : Nat) : Option Word :=
  match b[addr]?, b[addr + 1]? with
  | some hi, some lo => some (pack16 hi lo)
  | _, _ => none

/-- R42: `MemWrite(addr, 2, v)` to the result bytes. -/
def memWrite (o : Block) (addr : Nat) (v : Word) : Block :=
  (o.setIfInBounds addr (hiByte v)).setIfInBounds (addr + 1) (loByte v)

/-! ### The multiplicative group -/

/-- R8: the element of 1..65536 a word stands for. -/
def lift (a : Word) : Nat := if a = 0 then 65536 else a.toNat

/-- R8: `low(v) = v mod 65536`. -/
def low (v : Nat) : Word := BitVec.ofNat 16 v

/-! ### Subkeys -/

/-- R20: the subkeys `k0..k5` of the round with index `r` (round `r + 1` of the spec's count from 1). -/
def roundKeys (s : Schedule) (r : Fin 8) : RoundKeys :=
  { k0 := s[6 * r.val], k1 := s[6 * r.val + 1], k2 := s[6 * r.val + 2],
    k3 := s[6 * r.val + 3], k4 := s[6 * r.val + 4], k5 := s[6 * r.val + 5] }

/-- R20: the subkeys of the output transformation, `S[48..51]`. -/
def outKeys (s : Schedule) : OutKeys := { k0 := s[48], k1 := s[49], k2 := s[50], k3 := s[51] }

/-! ### The operands of a request -/

/-- The key operand of LOADKEY: payload bytes 0 to 15 (R135). -/
def keyOperand (b : List Byte) (h : b.length = 16) : Key := Vector.ofFn fun j : Fin 16 => b[j.val]

/-- R45: the key as a 128-bit number, byte 0 most significant. -/
def keyNumber (key : Key) : BitVec 128 :=
  BitVec.ofNat 128 (key.toList.foldl (fun k b => k * 256 + b.toNat) 0)

/-- R48, R152: at least 8 bytes are available from `off`; the sum does not wrap. -/
abbrev blockAvailable (b : List Byte) (off : Nat) : Prop := off + 8 ≤ b.length

/-- The block operand of ENCRYPT and DECRYPT: payload bytes `off` to `off + 7` (R47, R137). -/
def blockOperand (b : List Byte) (off : Nat) (h : blockAvailable b off) : Block :=
  Vector.ofFn fun j : Fin 8 => b[off + j.val]

/-- R68, R127: the four words of a block. -/
def blockWords (blk : Block) : Quad :=
  { x0 := pack16 blk[0] blk[1], x1 := pack16 blk[2] blk[3], x2 := pack16 blk[4] blk[5], x3 := pack16 blk[6] blk[7] }

/-- R68, R127: the eight bytes of four result words. -/
def wordsBlock (r : Quad) : Block :=
  #v[hiByte r.x0, loByte r.x0, hiByte r.x1, loByte r.x1, hiByte r.x2, loByte r.x2, hiByte r.x3, loByte r.x3]

/-- R69: the direction flag selects the schedule: `EK` for 0, `DK` for 1. -/
def selectSchedule (dir : Bool) (ek dk : Schedule) : Schedule := if dir then dk else ek

end Sys2Proof.Machine
end

