-- ==== Sys2Proof/Machine/Ops.lean ====
section
/-!
DEFINITION. The shared operations over State: answering a request, ending a command with an error (the one shared operation of
every error; spec/60_exceptions.md R159), writing the schedules, the reset event, and giving out a unit operation's
outputs. There is no return from an error to model: there is no handler and nothing is saved (R161, R162).
-/

namespace Sys2Proof.Machine

/-- R65: deliver one response, after those delivered before it. -/
def respond (st : Status) (o : Option Block) (s : State) : State :=
  { s with responses := s.responses ++ [⟨st, o⟩] }

/-- R9, `respond OK(data)`. -/
def respondOK (o : Option Block) (s : State) : Host.Outcome State Fault Refusal := .next (respond .ok o s)

/-- R159, `raise <Error>`: the command ends at once, writes no state, and its response carries the error's status and no
result bytes. -/
def raiseError (e : Status) (s : State) : Host.Outcome State Fault Refusal := .next (respond e none s)

/-- R135: the one indivisible update of `EK`, `DK` and `KV`. -/
def installSchedules (ek dk : Schedule) (s : State) : State := { s with engine := .keyed ek dk }

/-- R170: `KV <- 0`, and `EK`, `DK` lose their values. What a unit operation put out is transient (R26) and goes too
(log 3). -/
def applyReset (s : State) : State := { s with engine := .noKey, unitOut := .none }

/-- The outputs of a unit operation (R63), put where a reader of the model can see them (log 3). -/
def unitResult (o : UnitOut) (s : State) : Host.Outcome State Fault Refusal := .next { s with unitOut := o }

/-- R64: the byte string of a response: `{000000, st}`, then the result bytes when there are any. -/
def responseBytes (r : Response) : List Byte :=
  (statusCode r.status).setWidth 8 ::
    match r.result with
    | none => []
    | some o => o.toList

end Sys2Proof.Machine
end

