-- ==== Sys2Proof/Machine/Arith.lean ====
section
/-!
DEFINITION. The modular arithmetic units (spec/40_modular_arithmetic.md): ADD, ADDINV, MUL, MULINV, XOR, COPY, each as a function on
words and as an instruction. No operation here reads or writes `EK`, `DK` or `KV`, and none can raise an error.
-/

namespace Sys2Proof.Machine

/-- R80: `(a + b) mod 65536`. -/
def add (a b : Word) : Word := BitVec.ofNat 16 ((a.toNat + b.toNat) % 65536)

/-- R81: `(65536 - a) mod 65536`. -/
def addInv (a : Word) : Word := BitVec.ofNat 16 ((65536 - a.toNat) % 65536)

/-- R82, the document's form: the true product reduced modulo 65537 and masked, and `(1 - a - b) mod 65536` when the
product is zero. -/
def mul (a b : Word) : Word :=
  let p := a.toNat * b.toNat
  if p ≠ 0 then BitVec.ofNat 16 (p % 65537 % 65536)
  else BitVec.ofInt 16 ((1 - (a.toNat : Int) - (b.toNat : Int)) % 65536)

/-- `v ^ (2 ^ k - 1) mod 65537`, by `k` steps of square and multiply. -/
def powAllOnes (v : Nat) : Nat → Nat
  | 0 => 1
  | k + 1 =>
    let r := powAllOnes v k
    r * r * v % 65537

/-- R85: the one word `y` with `mul(a, y) = 1`, by the rule's closed form `low(lift(a)^65535 mod 65537)`
(65535 = 2^16 - 1). -/
def mulInv (a : Word) : Word := low (powAllOnes (lift a) 16)

/-- R88: bitwise exclusive or. -/
def xorWord (a b : Word) : Word := a ^^^ b

/-- R89: the identity. -/
def copyWord (a : Word) : Word := a

/-- R86: the passes of the reference procedure for MULINV, at most `fuel` of them; 0 when the fuel runs out (R87). -/
def euclidPasses : (fuel : Nat) → (x y t0 t1 : Nat) → Word
  | 0, _, _, _, _ => 0
  | fuel + 1, x, y, t0, t1 =>
    let t1 := t1 + y / x * t0
    let y := y % x
    if y = 1 then BitVec.ofNat 16 ((65537 - t1) % 65536)
    else
      let t0 := t0 + x / y * t1
      let x := x % y
      if x = 1 then BitVec.ofNat 16 (t0 % 65536)
      else euclidPasses fuel x y t0 t1

/-- R86: the reference procedure. The machine runs `mulInv`; this is "one way to meet it" (log 6). -/
def mulInvEuclid (fuel : Nat) (a : Word) : Word :=
  if a.toNat ≤ 1 then a else euclidPasses fuel a.toNat 65537 1 0

/-! ### Meanings -/

/-- ADD, R80. -/
def execAdd (a b : Word) (s : State) : Host.Outcome State Fault Refusal := unitResult (.word (add a b)) s

/-- ADDINV, R81. -/
def execAddInv (a : Word) (s : State) : Host.Outcome State Fault Refusal := unitResult (.word (addInv a)) s

/-- MUL, R82. -/
def execMul (a b : Word) (s : State) : Host.Outcome State Fault Refusal := unitResult (.word (mul a b)) s

/-- MULINV, R85. -/
def execMulInv (a : Word) (s : State) : Host.Outcome State Fault Refusal := unitResult (.word (mulInv a)) s

/-- XOR, R88. -/
def execXor (a b : Word) (s : State) : Host.Outcome State Fault Refusal := unitResult (.word (xorWord a b)) s

/-- COPY, R89. -/
def execCopy (a : Word) (s : State) : Host.Outcome State Fault Refusal := unitResult (.word (copyWord a)) s

end Sys2Proof.Machine
end

