-- ==== Sys2Proof/Machine/Block.lean ====
section
/-!
DEFINITION. The round function, the output transformation and the block transform (spec/43_round_and_block.md): ROUND, OUTT,
UNPACK16, CRYPT.
-/

namespace Sys2Proof.Machine

/-- R120, R121: the inner mixing step, from `(s4, s5)` to `(s8, s9)`. -/
def innerMix (s4 s5 k4 k5 : Word) : Word × Word :=
  let s6 := mul s4 k4
  let s7 := add s5 s6
  let s8 := mul s7 k5
  let s9 := add s6 s8
  (s8, s9)

/-- R120, ROUND: the second output word comes from `s2` and the third from `s1`. -/
def roundFn (x : Quad) (k : RoundKeys) : Quad :=
  let s0 := mul x.x0 k.k0
  let s1 := add x.x1 k.k1
  let s2 := add x.x2 k.k2
  let s3 := mul x.x3 k.k3
  let s4 := xorWord s0 s2
  let s5 := xorWord s1 s3
  let m := innerMix s4 s5 k.k4 k.k5
  let s8 := m.1
  let s9 := m.2
  { x0 := xorWord s0 s8, x1 := xorWord s2 s8, x2 := xorWord s1 s9, x3 := xorWord s3 s9 }

/-- R123, OUTT: `r1` is computed from `x2` and `r2` from `x1`. -/
def outFn (x : Quad) (k : OutKeys) : Quad :=
  { x0 := mul x.x0 k.k0, x1 := add x.x2 k.k1, x2 := add x.x1 k.k2, x3 := mul x.x3 k.k3 }

/-- R127: the eight rounds, in order, each with its six subkeys. -/
def eightRounds (s : Schedule) (x : Quad) : Quad :=
  ([0, 1, 2, 3, 4, 5, 6, 7] : List (Fin 8)).foldl (fun x r => roundFn x (roundKeys s r)) x

/-- R127, CRYPT: the block transform; the direction is only the choice of schedule. -/
def crypt (blk : Block) (s : Schedule) : Block :=
  wordsBlock (outFn (eightRounds s (blockWords blk)) (outKeys s))

/-! ### Meanings -/

/-- UNPACK16, R126. -/
def execUnpack16 (v : Word) (s : State) : Host.Outcome State Fault Refusal :=
  unitResult (.bytes (hiByte v) (loByte v)) s

/-- ROUND, R120. -/
def execRound (x : Quad) (k : RoundKeys) (s : State) : Host.Outcome State Fault Refusal :=
  unitResult (.quad (roundFn x k)) s

/-- OUTT, R123. -/
def execOutt (x : Quad) (k : OutKeys) (s : State) : Host.Outcome State Fault Refusal :=
  unitResult (.quad (outFn x k)) s

/-- CRYPT, R127. -/
def execCrypt (blk : Block) (sched : Schedule) (s : State) : Host.Outcome State Fault Refusal :=
  unitResult (.block (crypt blk sched)) s

end Sys2Proof.Machine
end

