-- ==== Sys2Proof/Machine/KeyInverter.lean ====
section
/-!
DEFINITION. The subkey inverter (spec/42_subkey_inverter.md): KINV, and its mapping as the table of R111.
-/

namespace Sys2Proof.Machine

/-- R66: the transforms of a mapping-table entry. -/
inductive Transform where
  | copy | addInv | mulInv
  deriving DecidableEq, Repr

/-- R66: what a transform does to a word. -/
def Transform.apply : Transform → Word → Word
  | .copy => copyWord
  | .addInv => Sys2Proof.Machine.addInv
  | .mulInv => Sys2Proof.Machine.mulInv

/-- R110: the first group: decryption round 1 takes the output transformation's subkeys, and `k4`, `k5` of round 8. -/
def invertFirst (e : Schedule) : List Word :=
  [mulInv e[48], addInv e[49], addInv e[50], mulInv e[51], copyWord e[46], copyWord e[47]]

/-- R110: the middle group `j + 1` (`j` in 0..6): positions 1 and 2 exchanged, `k4`, `k5` from the round before. -/
def invertMiddle (e : Schedule) (j : Fin 7) : List Word :=
  [mulInv e[42 - 6 * j.val], addInv e[44 - 6 * j.val], addInv e[43 - 6 * j.val], mulInv e[45 - 6 * j.val],
   copyWord e[40 - 6 * j.val], copyWord e[41 - 6 * j.val]]

/-- R110: the last group: the decryption output transformation takes round 1's first four subkeys. -/
def invertLast (e : Schedule) : List Word := [mulInv e[0], addInv e[1], addInv e[2], mulInv e[3]]

/-- R110, KINV: the nine groups in order of destination, 52 words. -/
def kinv (e : Schedule) : Schedule :=
  ⟨(invertFirst e ++ invertMiddle e 0 ++ invertMiddle e 1 ++ invertMiddle e 2 ++ invertMiddle e 3
    ++ invertMiddle e 4 ++ invertMiddle e 5 ++ invertMiddle e 6 ++ invertLast e).toArray, rfl⟩

/-- R66: an entry of the mapping table, `DK[dst] <- t(EK[src])`. -/
structure MapEntry where
  dst : Fin 52
  src : Fin 52
  t : Transform
  deriving DecidableEq, Repr

/-- R111: the mapping as a table, in the order of `dst`. -/
def mapTable : List MapEntry :=
  [⟨0, 48, .mulInv⟩, ⟨1, 49, .addInv⟩, ⟨2, 50, .addInv⟩, ⟨3, 51, .mulInv⟩, ⟨4, 46, .copy⟩, ⟨5, 47, .copy⟩]
  ++ [⟨6, 42, .mulInv⟩, ⟨7, 44, .addInv⟩, ⟨8, 43, .addInv⟩, ⟨9, 45, .mulInv⟩, ⟨10, 40, .copy⟩, ⟨11, 41, .copy⟩]
  ++ [⟨12, 36, .mulInv⟩, ⟨13, 38, .addInv⟩, ⟨14, 37, .addInv⟩, ⟨15, 39, .mulInv⟩, ⟨16, 34, .copy⟩, ⟨17, 35, .copy⟩]
  ++ [⟨18, 30, .mulInv⟩, ⟨19, 32, .addInv⟩, ⟨20, 31, .addInv⟩, ⟨21, 33, .mulInv⟩, ⟨22, 28, .copy⟩, ⟨23, 29, .copy⟩]
  ++ [⟨24, 24, .mulInv⟩, ⟨25, 26, .addInv⟩, ⟨26, 25, .addInv⟩, ⟨27, 27, .mulInv⟩, ⟨28, 22, .copy⟩, ⟨29, 23, .copy⟩]
  ++ [⟨30, 18, .mulInv⟩, ⟨31, 20, .addInv⟩, ⟨32, 19, .addInv⟩, ⟨33, 21, .mulInv⟩, ⟨34, 16, .copy⟩, ⟨35, 17, .copy⟩]
  ++ [⟨36, 12, .mulInv⟩, ⟨37, 14, .addInv⟩, ⟨38, 13, .addInv⟩, ⟨39, 15, .mulInv⟩, ⟨40, 10, .copy⟩, ⟨41, 11, .copy⟩]
  ++ [⟨42, 6, .mulInv⟩, ⟨43, 8, .addInv⟩, ⟨44, 7, .addInv⟩, ⟨45, 9, .mulInv⟩, ⟨46, 4, .copy⟩, ⟨47, 5, .copy⟩]
  ++ [⟨48, 0, .mulInv⟩, ⟨49, 1, .addInv⟩, ⟨50, 2, .addInv⟩, ⟨51, 3, .mulInv⟩]

/-! ### Meaning -/

/-- KINV, R110. -/
def execKinv (e : Schedule) (s : State) : Host.Outcome State Fault Refusal := unitResult (.schedule (kinv e)) s

end Sys2Proof.Machine
end

