-- ==== Sys2Proof/Machine/KeySchedule.lean ====
section
/-!
DEFINITION. The key schedule expander (spec/41_key_schedule.md): PACK16 and KEXP.
-/

namespace Sys2Proof.Machine

/-- R102, R67: the first eight words, `Z[j] = pack16(key[2j], key[2j+1])`. -/
def keyWords (key : Key) : Vector Word 8 :=
  Vector.ofFn fun j : Fin 8 => pack16 key[2 * j.val] key[2 * j.val + 1]

/-- R102: the index of the source word `A` of `Z[i]`. -/
def sourceA (i : Nat) : Nat := if (i + 1) % 8 ≠ 0 then i - 7 else i - 15

/-- R102: the index of the source word `B` of `Z[i]`. -/
def sourceB (i : Nat) : Nat := if (i + 2) % 8 < 2 then i - 14 else i - 6

theorem sourceA_lt (k : Nat) : sourceA (8 + k) < 8 + k := by unfold sourceA; split <;> omega

theorem sourceB_lt (k : Nat) : sourceB (8 + k) < 8 + k := by unfold sourceB; split <;> omega

/-- R102: `((A << 9) | (B >> 7)) mod 65536`, the shifts on unbounded integers. -/
def rotateJoin (a b : Word) : Word := BitVec.ofNat 16 (((a.toNat <<< 9) ||| (b.toNat >>> 7)) % 65536)

/-- R102: the words after `k` steps of the loop, in increasing order of `i = 8 + k`; each step reads only words already
written. -/
def expandSteps (key : Key) : (k : Nat) → Vector Word (8 + k)
  | 0 => keyWords key
  | k + 1 =>
    let z := expandSteps key k
    z.push (rotateJoin (z[sourceA (8 + k)]'(sourceA_lt k)) (z[sourceB (8 + k)]'(sourceB_lt k)))

/-- R102, KEXP: sixteen bytes to fifty-two words, 44 steps. -/
def kexp (key : Key) : Schedule := expandSteps key 44

/-- R104: the rotation form of word `i`: group `i div 8` is the key rotated left by 25 bits a group, cut from the most
significant end. The machine runs `kexp`; this is the form it is compared with. -/
def rotationWord (key : Key) (i : Nat) : Word :=
  ((keyNumber key).rotateLeft (25 * (i / 8))).extractLsb' (112 - 16 * (i % 8)) 16

/-- A row of R103: for word `i`, its source words and the key bit (position 0 the most significant) it starts at. -/
structure SourceRow where
  i : Nat
  a : Nat
  b : Nat
  start : Nat
  deriving DecidableEq, Repr

/-- R103: the source words of every expanded subkey. -/
def sourceTable : List SourceRow :=
  [⟨8, 1, 2, 25⟩, ⟨9, 2, 3, 41⟩, ⟨10, 3, 4, 57⟩, ⟨11, 4, 5, 73⟩, ⟨12, 5, 6, 89⟩, ⟨13, 6, 7, 105⟩, ⟨14, 7, 0, 121⟩,
   ⟨15, 0, 1, 9⟩]
  ++ [⟨16, 9, 10, 50⟩, ⟨17, 10, 11, 66⟩, ⟨18, 11, 12, 82⟩, ⟨19, 12, 13, 98⟩, ⟨20, 13, 14, 114⟩, ⟨21, 14, 15, 2⟩,
   ⟨22, 15, 8, 18⟩, ⟨23, 8, 9, 34⟩]
  ++ [⟨24, 17, 18, 75⟩, ⟨25, 18, 19, 91⟩, ⟨26, 19, 20, 107⟩, ⟨27, 20, 21, 123⟩, ⟨28, 21, 22, 11⟩, ⟨29, 22, 23, 27⟩,
   ⟨30, 23, 16, 43⟩, ⟨31, 16, 17, 59⟩]
  ++ [⟨32, 25, 26, 100⟩, ⟨33, 26, 27, 116⟩, ⟨34, 27, 28, 4⟩, ⟨35, 28, 29, 20⟩, ⟨36, 29, 30, 36⟩, ⟨37, 30, 31, 52⟩,
   ⟨38, 31, 24, 68⟩, ⟨39, 24, 25, 84⟩]
  ++ [⟨40, 33, 34, 125⟩, ⟨41, 34, 35, 13⟩, ⟨42, 35, 36, 29⟩, ⟨43, 36, 37, 45⟩, ⟨44, 37, 38, 61⟩, ⟨45, 38, 39, 77⟩,
   ⟨46, 39, 32, 93⟩, ⟨47, 32, 33, 109⟩]
  ++ [⟨48, 41, 42, 22⟩, ⟨49, 42, 43, 38⟩, ⟨50, 43, 44, 54⟩, ⟨51, 44, 45, 70⟩]

/-! ### Meanings -/

/-- PACK16, R100. -/
def execPack16 (hi lo : Byte) (s : State) : Host.Outcome State Fault Refusal := unitResult (.word (pack16 hi lo)) s

/-- KEXP, R102. -/
def execKexp (key : Key) (s : State) : Host.Outcome State Fault Refusal := unitResult (.schedule (kexp key)) s

end Sys2Proof.Machine
end

