-- ==== Sys2Proof/Machine/Commands.lean ====
section
/-!
DEFINITION. The host commands (spec/44_commands.md): LOADKEY, ENCRYPT, DECRYPT. Each is one atomic step (R11). All checks
run before any computation, data read or write (R158).
-/

namespace Sys2Proof.Machine

/-- R137, R139: a block command with direction `dir`. `KV = 0` is checked first (R157), then the length; no state is
written. `off` and the payload's length are unbounded numbers here (R48). -/
def blockCommand (dir : Bool) (off : Nat) (payload : List Byte) (s : State) : Host.Outcome State Fault Refusal :=
  match s.engine with
  | .noKey => raiseError .keyNotLoaded s
  | .keyed ek dk =>
    if h : blockAvailable payload off then
      respondOK (some (crypt (blockOperand payload off h) (selectSchedule dir ek dk))) s
    else raiseError .invalidBlockLength s

/-- ENCRYPT, R137. -/
def execEncrypt (off : Byte) (payload : List Byte) (s : State) : Host.Outcome State Fault Refusal :=
  blockCommand false off.toNat payload s

/-- DECRYPT, R139. -/
def execDecrypt (off : Byte) (payload : List Byte) (s : State) : Host.Outcome State Fault Refusal :=
  blockCommand true off.toNat payload s

/-- LOADKEY, R135: `off` is ignored (R72). -/
def execLoadKey (_off : Byte) (payload : List Byte) (s : State) : Host.Outcome State Fault Refusal :=
  if h : payload.length = 16 then
    let z := kexp (keyOperand payload h)
    respondOK none (installSchedules z (kinv z) s)
  else raiseError .invalidKeyLength s

end Sys2Proof.Machine
end

