-- ==== Sys2Proof/Machine/Dispatch.lean ====
section
/-!
DEFINITION. The meaning of every instruction, one arm per constructor. For a unit operation this is the operation itself, on
the inputs it carries (spec/30_encoding.md R63); a REQUEST that names one is refused by `step` (R71).
-/

namespace Sys2Proof.Machine

def exec (i : Instr) (s : State) : Host.Outcome State Fault Refusal :=
  match i with
  | .encrypt off payload => Sys2Proof.Machine.execEncrypt off payload s
  | .decrypt off payload => Sys2Proof.Machine.execDecrypt off payload s
  | .loadKey off payload => Sys2Proof.Machine.execLoadKey off payload s
  | .add a b => Sys2Proof.Machine.execAdd a b s
  | .addInv a => Sys2Proof.Machine.execAddInv a s
  | .mul a b => Sys2Proof.Machine.execMul a b s
  | .mulInv a => Sys2Proof.Machine.execMulInv a s
  | .xor a b => Sys2Proof.Machine.execXor a b s
  | .copy a => Sys2Proof.Machine.execCopy a s
  | .pack16 hi lo => Sys2Proof.Machine.execPack16 hi lo s
  | .unpack16 v => Sys2Proof.Machine.execUnpack16 v s
  | .kexp key => Sys2Proof.Machine.execKexp key s
  | .kinv e => Sys2Proof.Machine.execKinv e s
  | .round x k => Sys2Proof.Machine.execRound x k s
  | .outt x k => Sys2Proof.Machine.execOutt x k s
  | .crypt blk sched => Sys2Proof.Machine.execCrypt blk sched s

end Sys2Proof.Machine
end

