-- ==== Sys2Proof/Machine/Fetch.lean ====
section
/-!
DEFINITION. What the core finds at its port: the next event of the host (spec/44_commands.md R143, spec/70_reset_and_hazards.md
R170). There is no program counter and no instruction memory (spec/10_state.md R27): requests are taken in the order
the host sent them (spec/20_memory.md R51).
-/

namespace Sys2Proof.Machine

/-- What the next step is to do, with the state once the port has given up what it takes. -/
inductive Fetched where
  /-- Nothing to take: the core is idle (R32, log 2). -/
  | idle (s : State)
  /-- R170, R172: a reset. -/
  | reset (s : State)
  /-- An accepted request. -/
  | run (i : Instr) (s : State)
  /-- A request that is not accepted (R71). -/
  | refuse (r : Refusal)
  /-- A part of a request (R143, U7). -/
  | stuck (r : Fault)
  deriving DecidableEq, Repr

/-- The port after a request was taken out of its first run of bytes (R73). -/
def requeue (rest : List Byte) (evs : List PortEvent) : List PortEvent :=
  match rest with
  | [] => evs
  | _ :: _ => .bytes rest :: evs

/-- R70, R71, R158: take a request out of a run of bytes. -/
def fetchRequest (bs : List Byte) (evs : List PortEvent) (s : State) : Fetched :=
  match decodeRequest bs with
  | .command i rest => .run i { s with port := requeue rest evs }
  | .unitName cw => .refuse (.unitNameInRequest cw)
  | .reserved cw => .refuse (.reservedCommandWord cw)
  | .incomplete => .stuck .incompleteRequest

/-- The next event at the port. A reset drops the request it interrupts, unanswered (R172). -/
def fetch (s : State) : Fetched :=
  match s.port with
  | [] => .idle s
  | .reset _ :: evs => .reset { s with port := evs }
  | .bytes [] :: evs => .idle { s with port := evs }
  | .bytes (cw :: fields) :: evs => fetchRequest (cw :: fields) evs s

end Sys2Proof.Machine
end

