-- ==== Sys2Proof/Machine/Step.lean ====
section
/-!
DEFINITION. One step: one whole command, or one reset, or an idle core staying as it is (spec/00_scope.md R11).
-/

namespace Sys2Proof.Machine

/-- One step of the core. -/
def step (s : State) : Host.Outcome State Fault Refusal :=
  match fetch s with
  | .idle t => .next t
  | .reset t => .next (applyReset t)
  | .run i t => exec i t
  | .refuse r => .refused r
  | .stuck r => .fault r

/-- The host sends, before anything else at the port, the one request whose first bits are the table word `w`. -/
def State.withFetchWord (s : State) (nbits w : Nat) : State :=
  { s with port := .bytes (tableBytes nbits w) :: s.port }

end Sys2Proof.Machine
end

