-- ==== Sys2Proof/Safety.lean ====
section
/-!
DEFINITION. The terms claims are stated in: when a run is safe, the invariant of the schedules (spec/10_state.md R23), and the
inverse of a round (spec/43_round_and_block.md R122), which the hardware never computes and "is stated for proofs".
-/

namespace Sys2Proof.Machine

/-- An outcome with a next state. -/
def Completes (o : Host.Outcome State Fault Refusal) : Prop := ∃ t, o = .next t

/-- `k` steps, stopping at the first fault or refusal. -/
def run : Nat → State → Host.Outcome State Fault Refusal
  | 0, s => .next s
  | k + 1, s =>
    match step s with
    | .next t => run k t
    | .fault r => .fault r
    | .refused r => .refused r

/-- A run of `k` steps is safe when no step of it faults or refuses. -/
def SafeRun (k : Nat) (s : State) : Prop := Completes (run k s)

/-- The three host commands (R62). -/
def HostCommand : Instr → Prop
  | .encrypt _ _ => True
  | .decrypt _ _ => True
  | .loadKey _ _ => True
  | .add _ _ => False
  | .addInv _ => False
  | .mul _ _ => False
  | .mulInv _ => False
  | .xor _ _ => False
  | .copy _ => False
  | .pack16 _ _ => False
  | .unpack16 _ => False
  | .kexp _ => False
  | .kinv _ => False
  | .round _ _ => False
  | .outt _ _ => False
  | .crypt _ _ => False

/-- R23: whenever `KV = 1` there is a 16-byte key such that `EK = KEXP(key)` and `DK = KINV(EK)`. -/
def ScheduleInv (s : State) : Prop :=
  ∀ ek dk, s.engine = .keyed ek dk → ∃ key : Key, ek = kexp key ∧ dk = kinv ek

/-- R122: the inverse of ROUND under the same six subkeys. -/
def roundInverse (y : Quad) (k : RoundKeys) : Quad :=
  let m := innerMix (xorWord y.x0 y.x1) (xorWord y.x2 y.x3) k.k4 k.k5
  { x0 := mul (xorWord y.x0 m.1) (mulInv k.k0)
    x1 := add (xorWord y.x2 m.2) (addInv k.k1)
    x2 := add (xorWord y.x1 m.1) (addInv k.k2)
    x3 := mul (xorWord y.x3 m.2) (mulInv k.k3) }

/-- The payload holds the block `blk` at byte `off` (R47, R48). -/
def HoldsBlock (payload : List Byte) (off : Nat) (blk : Block) : Prop :=
  ∀ j : Fin 8, payload[off + j.val]? = some blk[j.val]

end Sys2Proof.Machine
end

