-- ==== Sys2Proof/Certificates/Slice0/Obligations.lean ====
section
/-!
DEFINITION. The statements for the provers, from the numbered rules of spec/. Where a statement says where a unit operation run
on its own leaves its outputs, that place, `unitOut`, is the model's own (log 3); where it says that a response stands at
the end of `responses`, that list is the model's form of the response channel (log 2).
-/

open Sys2Proof Sys2Proof.Machine

/-! ### Modular arithmetic (40_modular_arithmetic.md) -/

/-- R80: the value for every two words, the corner cases, the example and the code. -/
def Obligations.AddIsTheSumModulo65536 : Prop :=
  (∀ a b : Word, (add a b).toNat = (a.toNat + b.toNat) % 65536) ∧
  (∀ a : Word, add a 0 = a) ∧ (∀ a b : Word, add a b = add b a) ∧
  add 0xFFFF 1 = 0 ∧ add 0xFFFF 0xFFFF = 0xFFFE ∧ add 0x8000 0x8000 = 0 ∧ add 1 2 = 3 ∧
  Op.add.code = 0x80

/-- R81: the value for every word, the corner cases, the example and the code. -/
def Obligations.AddInvIsTheNegationModulo65536 : Prop :=
  (∀ a : Word, (addInv a).toNat = (65536 - a.toNat) % 65536) ∧
  (∀ a : Word, addInv (addInv a) = a) ∧ (∀ a : Word, addInv a = ~~~a + 1) ∧
  (∀ a : Word, addInv a = a ↔ a = 0 ∨ a = 0x8000) ∧
  addInv 0 = 0 ∧ addInv 1 = 0xFFFF ∧ addInv 0xFFFF = 1 ∧ addInv 0x00C0 = 0xFF40 ∧ Op.addInv.code = 0x81

/-- R82: both branches of the pseudocode, the corner cases of its table, the examples and the code. -/
def Obligations.MulReducesTheTrueProductModulo65537 : Prop :=
  (∀ a b : Word, a.toNat * b.toNat ≠ 0 → (mul a b).toNat = a.toNat * b.toNat % 65537 % 65536) ∧
  (∀ a b : Word, a.toNat * b.toNat = 0 →
    ((mul a b).toNat : Int) = (1 - (a.toNat : Int) - (b.toNat : Int)) % 65536) ∧
  mul 0 0 = 1 ∧
  (∀ b : Word, b ≠ 0 → (mul 0 b).toNat = (65537 - b.toNat) % 65536) ∧
  (∀ a : Word, a ≠ 0 → (mul a 0).toNat = (65537 - a.toNat) % 65536) ∧
  (∀ b : Word, mul 1 b = b) ∧
  (∀ a b : Word, a ≠ 0 → b ≠ 0 → a.toNat * b.toNat % 65537 = 65536 → mul a b = 0) ∧
  (∀ a b : Word, a ≠ 0 → b ≠ 0 → a.toNat * b.toNat % 65537 ≠ 0) ∧
  (∀ a b : Word, a.toNat * b.toNat ≤ 0xFFFE0001) ∧
  mul 0x0002 0x8000 = 0 ∧ mul 0x0100 0x0100 = 0 ∧ mul 0 1 = 0 ∧ mul 1 0 = 0 ∧ mul 3 4 = 0xC ∧
  0xFFFF * 0xFFFF = 0xFFFE0001 ∧ Op.mul.code = 0x82

/-- R83: `mul` is the multiplication of nonzero residues modulo 65537. -/
def Obligations.MulIsTheGroupOperation : Prop :=
  (∀ a b : Word, mul a b = low (lift a * lift b % 65537)) ∧
  (∀ a b : Word, lift a = lift b → a = b) ∧
  (∀ v : Nat, 1 ≤ v ∧ v ≤ 65536 ↔ ∃ a : Word, lift a = v) ∧
  (∀ a b : Word, mul a b = mul b a) ∧
  (∀ a b c : Word, mul (mul a b) c = mul a (mul b c)) ∧
  (∀ a : Word, mul 1 a = a) ∧
  (∀ a : Word, Function.Bijective (mul a))

/-- R85: `mulInv a` is the one word whose product with `a` is 1; its closed form, corner cases, table and code. -/
def Obligations.MulInvIsTheUniqueInverse : Prop :=
  (∀ a y : Word, mul a y = 1 ↔ y = mulInv a) ∧
  (∀ a : Word, mulInv a = low (lift a ^ 65535 % 65537)) ∧
  (∀ a : Word, mulInv a = a ↔ a = 0 ∨ a = 1) ∧
  (∀ a : Word, mulInv (mulInv a) = a) ∧
  (∀ p ∈ ([(0x0000, 0x0000), (0x0001, 0x0001), (0x0002, 0x8001), (0x0003, 0x5556), (0x0004, 0xC001),
      (0x0005, 0x6667), (0x0007, 0x4925), (0x0100, 0xFF01), (0x1234, 0x9E9A), (0x7FFF, 0x5555), (0x8000, 0xFFFF),
      (0xFFFE, 0xAAAB), (0xFFFF, 0x8000), (0x0080, 0xFE01)] : List (Word × Word)), mulInv p.1 = p.2) ∧
  Op.mulInv.code = 0x83

/-- R87: every word from 2 on is coprime to 65537; R86's loop with a fuel bound returns 0 when the fuel runs out, and with
fuel 9 (so with more) it never does: it returns `mulInv a`, which is not 0 where the loop is entered. -/
def Obligations.EuclidLoopWithFuelNineNeverRunsOut : Prop :=
  (∀ a : Word, 1 < a.toNat → Nat.Coprime a.toNat 65537) ∧
  (∀ x y t0 t1 : Nat, euclidPasses 0 x y t0 t1 = 0) ∧
  (∀ (fuel : Nat) (a : Word), 9 ≤ fuel → mulInvEuclid fuel a = mulInv a) ∧
  (∀ a : Word, 1 < a.toNat → mulInvEuclid 9 a ≠ 0)

/-- R88, R89: the values, the corner cases, the examples and the codes. -/
def Obligations.XorIsBitwiseAndCopyIsTheIdentity : Prop :=
  (∀ (a b : Word) (i : Nat), i < 16 → ((xorWord a b).getLsbD i = true ↔ a.getLsbD i ≠ b.getLsbD i)) ∧
  (∀ a : Word, xorWord a 0 = a) ∧ (∀ a : Word, xorWord a a = 0) ∧ (∀ a : Word, xorWord a 0xFFFF = ~~~a) ∧
  xorWord 0 5 = 5 ∧ Op.xor.code = 0x84 ∧
  (∀ a : Word, copyWord a = a) ∧ Op.copy.code = 0x85

/-- R91. -/
def Obligations.InversesUndoTheirOperations : Prop :=
  (∀ a : Word, add a (addInv a) = 0) ∧ (∀ a : Word, mul a (mulInv a) = 1) ∧
  (∀ a k : Word, add (add a k) (addInv k) = a) ∧ (∀ a k : Word, mul (mul a k) (mulInv k) = a)

/-- Completion and frame of the arithmetic units (R63, R80, R81, R82, R85, R88, R89): each answers a next state in which
its output is in `unitOut` (the model's place, log 3) and everything else is as before. -/
def Obligations.ArithmeticUnitsComplete : Prop :=
  ∀ (a b : Word) (s : State),
    exec (.add a b) s = .next { s with unitOut := .word (BitVec.ofNat 16 ((a.toNat + b.toNat) % 65536)) } ∧
    exec (.addInv a) s = .next { s with unitOut := .word (BitVec.ofNat 16 ((65536 - a.toNat) % 65536)) } ∧
    exec (.mul a b) s = .next { s with unitOut := .word (low (lift a * lift b % 65537)) } ∧
    (∃ y : Word, mul a y = 1 ∧ exec (.mulInv a) s = .next { s with unitOut := .word y }) ∧
    exec (.xor a b) s = .next { s with unitOut := .word (a ^^^ b) } ∧
    exec (.copy a) s = .next { s with unitOut := .word a }

/-! ### Bytes and the key schedule (20_memory.md, 41_key_schedule.md) -/

/-- R41, R100, R126: packing and unpacking, what MemRead and MemWrite are in their terms, the examples and the codes. -/
def Obligations.PackAndUnpackAreBigEndian : Prop :=
  (∀ hi lo : Byte, (pack16 hi lo).toNat = hi.toNat * 256 + lo.toNat) ∧
  (∀ hi lo : Byte, pack16 hi lo = (hi.setWidth 16 <<< 8) ||| lo.setWidth 16) ∧
  (∀ v : Word, (hiByte v).toNat = v.toNat / 256 ∧ (loByte v).toNat = v.toNat % 256) ∧
  (∀ v : Word, pack16 (hiByte v) (loByte v) = v) ∧
  (∀ (b : List Byte) (addr : Nat) (h : addr + 2 ≤ b.length),
    memRead b addr = some (pack16 (b[addr]'(by omega)) (b[addr + 1]'(by omega)))) ∧
  (∀ (o : Block) (v : Word) (j : Fin 4),
    (memWrite o (2 * j.val) v)[2 * j.val] = hiByte v ∧ (memWrite o (2 * j.val) v)[2 * j.val + 1] = loByte v) ∧
  pack16 0x11 0xFB = 0x11FB ∧ hiByte 0x11FB = 0x11 ∧ loByte 0x11FB = 0xFB ∧
  Op.pack16.code = 0x86 ∧ Op.unpack16.code = 0x87

/-- R42: `MemWrite` to index 0, 2, 4 or 6 writes the high byte there and the low byte after it, and no other byte. -/
def Obligations.MemWriteWritesTwoBytesAndNoOther : Prop :=
  ∀ (o : Block) (v : Word) (addr : Nat), addr ∈ [0, 2, 4, 6] → ∀ k : Fin 8,
    (memWrite o addr v)[k.val] =
      if k.val = addr then v.extractLsb' 8 8 else if k.val = addr + 1 then v.extractLsb' 0 8 else o[k.val]

/-- R44, R67, R68: word `j` of the key and word `j` of the block are the words `MemRead` gives at `2j` and at `off + 2j`, the
byte there and the byte after it, high byte first; the four writes of a result's words at `2j` write every byte, high
byte first, whatever buffer they start from. -/
def Obligations.OperandsAreTheWordsOfMemRead : Prop :=
  (∀ (b : List Byte) (h : b.length = 16) (j : Fin 8),
    memRead b (2 * j.val) = some (kexp (keyOperand b h))[j.val] ∧
    (kexp (keyOperand b h))[j.val] = (b[2 * j.val].setWidth 16 <<< 8) ||| b[2 * j.val + 1].setWidth 16) ∧
  (∀ (b : List Byte) (off : Nat) (h : blockAvailable b off),
    let x := blockWords (blockOperand b off h)
    ∀ (j : Nat) (hj : j < 4),
      memRead b (off + 2 * j) = some [x.x0, x.x1, x.x2, x.x3][j] ∧
      [x.x0, x.x1, x.x2, x.x3][j] =
        ((b[off + 2 * j]'(by unfold blockAvailable at h; omega)).setWidth 16 <<< 8) |||
          (b[off + 2 * j + 1]'(by unfold blockAvailable at h; omega)).setWidth 16) ∧
  (∀ (o : Block) (r : Quad),
    memWrite (memWrite (memWrite (memWrite o 0 r.x0) 2 r.x1) 4 r.x2) 6 r.x3 = wordsBlock r ∧
    wordsBlock r = #v[r.x0.extractLsb' 8 8, r.x0.extractLsb' 0 8, r.x1.extractLsb' 8 8, r.x1.extractLsb' 0 8,
      r.x2.extractLsb' 8 8, r.x2.extractLsb' 0 8, r.x3.extractLsb' 8 8, r.x3.extractLsb' 0 8])

/-- R102: the key's eight words, then the recurrence, for every key; its corner cases and its code. -/
def Obligations.KexpFollowsTheRecurrence : Prop :=
  (∀ (key : Key) (j : Fin 8), (kexp key)[j.val] = pack16 key[2 * j.val] key[2 * j.val + 1]) ∧
  (∀ (key : Key) (i : Nat) (hi : i < 52), 8 ≤ i →
    let a := (kexp key)[if (i + 1) % 8 ≠ 0 then i - 7 else i - 15]'(by split <;> omega)
    let b := (kexp key)[if (i + 2) % 8 < 2 then i - 14 else i - 6]'(by split <;> omega)
    (kexp key)[i].toNat = ((a.toNat <<< 9) ||| (b.toNat >>> 7)) % 65536 ∧
    (kexp key)[i].extractLsb' 9 7 = a.extractLsb' 0 7 ∧ (kexp key)[i].extractLsb' 0 9 = b.extractLsb' 7 9) ∧
  kexp (Vector.replicate 16 0) = Vector.replicate 52 0 ∧
  kexp (Vector.replicate 16 0xFF) = Vector.replicate 52 0xFFFF ∧ Op.kexp.code = 0x88

/-- R103: the table lists every expanded word once, and each row's words, group, position and start are right. -/
def Obligations.KexpSourceTableIsRight : Prop :=
  sourceTable.map (·.i) = List.range' 8 44 ∧
  ∀ row ∈ sourceTable,
    row.a = (if (row.i + 1) % 8 ≠ 0 then row.i - 7 else row.i - 15) ∧
    row.b = (if (row.i + 2) % 8 < 2 then row.i - 14 else row.i - 6) ∧
    row.start = (16 * (row.i % 8) + 25 * (row.i / 8)) % 128 ∧ row.a < row.i ∧ row.b < row.i ∧ row.i < 52 ∧
    ∀ (key : Key) (hi : row.i < 52) (ha : row.a < 52) (hb : row.b < 52),
      (kexp key)[row.i].extractLsb' 9 7 = (kexp key)[row.a].extractLsb' 0 7 ∧
      (kexp key)[row.i].extractLsb' 0 9 = (kexp key)[row.b].extractLsb' 7 9

/-- R104, an equivalence of two designs: the recurrence and the 25-bit rotation give the same 52 words for every key; and
the bit form of it. -/
def Obligations.KexpIsTheRotationForm : Prop :=
  ∀ (key : Key) (i : Nat) (hi : i < 52),
    (kexp key)[i] = ((keyNumber key).rotateLeft (25 * (i / 8))).extractLsb' (112 - 16 * (i % 8)) 16 ∧
    ∀ t < 16, (kexp key)[i].getLsbD (15 - t) =
      (keyNumber key).getLsbD (127 - (16 * (i % 8) + 25 * (i / 8) + t) % 128)

/-- R45: the key as one 128-bit number, byte 0 most significant, and the first eight subkeys cut from it. -/
def Obligations.KeyNumberIsBigEndian : Prop :=
  ∀ key : Key,
    (keyNumber key).toNat = ∑ i : Fin 16, key[i.val].toNat * 2 ^ (120 - 8 * i.val) ∧
    ∀ j : Fin 8, (kexp key)[j.val] = (keyNumber key).extractLsb' (112 - 16 * j.val) 16

/-- Completion and frame of PACK16, KEXP and KINV (R63, R100, R102, R110); the place of the output is the model's
(log 3). -/
def Obligations.KeyUnitsComplete : Prop :=
  ∀ (hi lo : Byte) (key : Key) (e : Schedule) (s : State),
    exec (.pack16 hi lo) s = .next { s with unitOut := .word ((hi.setWidth 16 <<< 8) ||| lo.setWidth 16) } ∧
    exec (.kexp key) s = .next { s with unitOut := .schedule (kexp key) } ∧
    exec (.kinv e) s = .next { s with unitOut := .schedule (kinv e) }

/-! ### The subkey inverter (42_subkey_inverter.md) -/

/-- R110: the pseudocode, entry by entry, its corner cases and its code. -/
def Obligations.KinvFollowsThePseudocode : Prop :=
  (∀ e : Schedule,
    ((kinv e)[0] = mulInv e[48] ∧ (kinv e)[1] = addInv e[49] ∧ (kinv e)[2] = addInv e[50] ∧
      (kinv e)[3] = mulInv e[51] ∧ (kinv e)[4] = e[46] ∧ (kinv e)[5] = e[47]) ∧
    (∀ (j : Nat) (_ : 1 ≤ j) (_ : j ≤ 7),
      (kinv e)[6 * j] = mulInv e[48 - 6 * j] ∧ (kinv e)[6 * j + 1] = addInv e[48 - 6 * j + 2] ∧
      (kinv e)[6 * j + 2] = addInv e[48 - 6 * j + 1] ∧ (kinv e)[6 * j + 3] = mulInv e[48 - 6 * j + 3] ∧
      (kinv e)[6 * j + 4] = e[48 - 6 * j - 2] ∧ (kinv e)[6 * j + 5] = e[48 - 6 * j - 1]) ∧
    ((kinv e)[48] = mulInv e[0] ∧ (kinv e)[49] = addInv e[1] ∧ (kinv e)[50] = addInv e[2] ∧
      (kinv e)[51] = mulInv e[3])) ∧
  kinv (Vector.replicate 52 0) = Vector.replicate 52 0 ∧ mulInv 0 = 0 ∧ addInv 0 = 0 ∧ mulInv 1 = 1 ∧
  Op.kinv.code = 0x89

/-- R111: the table has one entry for each destination, it is what `kinv` does, its source column is a permutation
and its own inverse, and paired entries have the same transform. -/
def Obligations.KinvIsTheMappingTable : Prop :=
  (∀ (e : Schedule) (m : MapEntry), m ∈ mapTable → (kinv e)[m.dst.val] = m.t.apply e[m.src.val]) ∧
  mapTable.map (·.dst) = List.finRange 52 ∧
  (mapTable.map (·.src)).Perm (List.finRange 52) ∧
  (∀ m ∈ mapTable, ∃ m' ∈ mapTable, m'.dst = m.src ∧ m'.src = m.dst ∧ m'.t = m.t)

/-- R114: `kinv` is its own inverse, hence a bijection on schedules, so decrypting and then encrypting returns the block;
that it uses no state and no key but `e` is its type. -/
def Obligations.KinvIsAnInvolution : Prop :=
  (∀ e : Schedule, kinv (kinv e) = e) ∧ Function.Bijective kinv ∧
  (∀ (e : Schedule) (blk : Block), crypt (crypt blk (kinv e)) e = blk)

/-! ### The round and the block (43_round_and_block.md) -/

/-- R120: the fourteen values of the pseudocode, the zero operand of its `mul`, the example and the code. -/
def Obligations.RoundFollowsThePseudocode : Prop :=
  Op.round.code = 0x8A ∧
  (∀ b : Word, mul 0 b = 0 ↔ b = 1) ∧ (∀ a : Word, mul a 0 = 0 ↔ a = 1) ∧
  roundFn ⟨0, 1, 2, 3⟩ ⟨1, 2, 3, 4, 5, 6⟩ = ⟨0x00F0, 0x00F5, 0x010A, 0x0105⟩ ∧
  ∀ (x0 x1 x2 x3 k0 k1 k2 k3 k4 k5 s0 s1 s2 s3 s4 s5 s6 s7 s8 s9 : Word),
    s0 = mul x0 k0 → s1 = add x1 k1 → s2 = add x2 k2 → s3 = mul x3 k3 → s4 = s0 ^^^ s2 → s5 = s1 ^^^ s3 →
    s6 = mul s4 k4 → s7 = add s5 s6 → s8 = mul s7 k5 → s9 = add s6 s8 →
    roundFn ⟨x0, x1, x2, x3⟩ ⟨k0, k1, k2, k3, k4, k5⟩ = ⟨s0 ^^^ s8, s2 ^^^ s8, s1 ^^^ s9, s3 ^^^ s9⟩

/-- R122: for fixed subkeys ROUND is a bijection on data, with the inverse the rule gives. -/
def Obligations.RoundIsABijection : Prop :=
  (∀ (x : Quad) (k : RoundKeys), roundInverse (roundFn x k) k = x) ∧
  (∀ (y : Quad) (k : RoundKeys), roundFn (roundInverse y k) k = y) ∧
  (∀ k : RoundKeys, Function.Bijective (fun x => roundFn x k))

/-- R123: the pseudocode for every operands, the example and the code. -/
def Obligations.OutputTransformationExchangesTheMiddleWords : Prop :=
  (∀ (x0 x1 x2 x3 k0 k1 k2 k3 : Word),
    outFn ⟨x0, x1, x2, x3⟩ ⟨k0, k1, k2, k3⟩ = ⟨mul x0 k0, add x2 k1, add x1 k2, mul x3 k3⟩) ∧
  outFn ⟨0x0A24, 0x0098, 0xEC6B, 0x4925⟩ ⟨0x0080, 0x00C0, 0x0100, 0x0140⟩ = ⟨0x11FB, 0xED2B, 0x0198, 0x6DE5⟩ ∧
  Op.outt.code = 0x8B

/-- R127: eight rounds, each with its six subkeys, then the output transformation, over big-endian words; the all-zero
corner case and the code. -/
def Obligations.CryptRunsEightRoundsAndTheOutputTransformation : Prop :=
  Op.crypt.code = 0x8C ∧
  crypt (Vector.replicate 8 0) (Vector.replicate 52 0) = #v[0x00, 0x01, 0x00, 0x01, 0x00, 0x00, 0x00, 0x00] ∧
  ∀ (blk : Block) (s : Schedule) (x : Nat → Quad) (r : Quad),
    x 0 = ⟨pack16 blk[0] blk[1], pack16 blk[2] blk[3], pack16 blk[4] blk[5], pack16 blk[6] blk[7]⟩ →
    (∀ (i : Nat) (_ : i < 8), x (i + 1) =
      roundFn (x i) ⟨s[6 * i], s[6 * i + 1], s[6 * i + 2], s[6 * i + 3], s[6 * i + 4], s[6 * i + 5]⟩) →
    r = outFn (x 8) ⟨s[48], s[49], s[50], s[51]⟩ →
    crypt blk s =
      #v[hiByte r.x0, loByte r.x0, hiByte r.x1, loByte r.x1, hiByte r.x2, loByte r.x2, hiByte r.x3, loByte r.x3]

/-- R128 (2): for any fixed schedule CRYPT is a bijection on blocks. -/
def Obligations.CryptIsABijectionOnBlocks : Prop :=
  ∀ s : Schedule, Function.Bijective (fun blk => crypt blk s)

/-- R128 (3), R113, the headline of the algorithm: decryption with the inverted schedule undoes encryption, in both
orders, for every schedule and so for every key. -/
def Obligations.CryptRoundTripsUnderTheInvertedSchedule : Prop :=
  ∀ (e : Schedule) (blk : Block), crypt (crypt blk e) (kinv e) = blk ∧ crypt (crypt blk (kinv e)) e = blk

/-- Completion and frame of ROUND, OUTT, UNPACK16 and CRYPT (R63, R120, R123, R126, R127); the place of the output is the
model's (log 3). -/
def Obligations.BlockUnitsComplete : Prop :=
  ∀ (x : Quad) (k : RoundKeys) (o : OutKeys) (v : Word) (blk : Block) (sched : Schedule) (s : State),
    exec (.round x k) s = .next { s with unitOut := .quad (roundFn x k) } ∧
    exec (.outt x o) s = .next
      { s with unitOut := .quad ⟨mul x.x0 o.k0, add x.x2 o.k1, add x.x1 o.k2, mul x.x3 o.k3⟩ } ∧
    exec (.unpack16 v) s = .next { s with unitOut := .bytes (v.extractLsb' 8 8) (v.extractLsb' 0 8) } ∧
    exec (.crypt blk sched) s = .next { s with unitOut := .block (crypt blk sched) }

/-! ### Host commands (44_commands.md, 60_exceptions.md) -/

/-- R135: LOADKEY with 16 bytes writes `EK`, `DK` and `KV` in one update and answers OK with no result bytes; every other
state is as before, whatever `off` is; with any other length it answers InvalidKeyLength and writes no state. -/
def Obligations.LoadKeyInstallsBothSchedules : Prop :=
  Op.loadKey.code = 0x02 ∧
  (∀ (off : Byte) (key : Key) (s : State),
    exec (.loadKey off key.toList) s =
      .next { s with engine := .keyed (kexp key) (kinv (kexp key)), responses := s.responses ++ [⟨.ok, none⟩] }) ∧
  (∀ (off : Byte) (b : List Byte) (s : State), b.length ≠ 16 →
    exec (.loadKey off b) s = .next { s with responses := s.responses ++ [⟨.invalidKeyLength, none⟩] })

/-- R151: LOADKEY raises InvalidKeyLength exactly when `n` is not 16, and no other command raises it. -/
def Obligations.InvalidKeyLengthExactlyWhenNotSixteenBytes : Prop :=
  (∀ (off : Byte) (b : List Byte) (s : State), ∃ t r, exec (.loadKey off b) s = .next t ∧
    t.responses = s.responses ++ [r] ∧ (r.status = .invalidKeyLength ↔ b.length ≠ 16)) ∧
  (∀ (off : Byte) (b : List Byte) (s : State), ∀ i ∈ [Instr.encrypt off b, Instr.decrypt off b],
    ∃ t r, exec i s = .next t ∧ t.responses = s.responses ++ [r] ∧ r.status ≠ .invalidKeyLength)

/-- R137: ENCRYPT's three cases, the checks in their order; no state is written. -/
def Obligations.EncryptTransformsWithEK : Prop :=
  Op.encrypt.code = 0x00 ∧
  ∀ (off : Byte) (b : List Byte) (s : State),
    (s.kv = false → exec (.encrypt off b) s =
      .next { s with responses := s.responses ++ [⟨.keyNotLoaded, none⟩] }) ∧
    (s.kv = true → b.length < off.toNat + 8 → exec (.encrypt off b) s =
      .next { s with responses := s.responses ++ [⟨.invalidBlockLength, none⟩] }) ∧
    (∀ (ek : Schedule) (blk : Block), s.ek = some ek → HoldsBlock b off.toNat blk → exec (.encrypt off b) s =
      .next { s with responses := s.responses ++ [⟨.ok, some (crypt blk ek)⟩] })

/-- R139: DECRYPT is ENCRYPT with `DK` in place of `EK` and nothing else changed. -/
def Obligations.DecryptTransformsWithDK : Prop :=
  Op.decrypt.code = 0x01 ∧
  ∀ (off : Byte) (b : List Byte) (s : State),
    (s.kv = false → exec (.decrypt off b) s =
      .next { s with responses := s.responses ++ [⟨.keyNotLoaded, none⟩] }) ∧
    (s.kv = true → b.length < off.toNat + 8 → exec (.decrypt off b) s =
      .next { s with responses := s.responses ++ [⟨.invalidBlockLength, none⟩] }) ∧
    (∀ (dk : Schedule) (blk : Block), s.dk = some dk → HoldsBlock b off.toNat blk → exec (.decrypt off b) s =
      .next { s with responses := s.responses ++ [⟨.ok, some (crypt blk dk)⟩] })

/-- R152, R157: the status of a block command is a function of `KV`, `off` and `n`; KeyNotLoaded wins; there are result
bytes exactly when the status is OK; and LOADKEY raises neither of the two errors. -/
def Obligations.BlockStatusIsDecidedByKeyThenLength : Prop :=
  (∀ (off : Byte) (b : List Byte) (s : State), ∃ t r, exec (.loadKey off b) s = .next t ∧
    t.responses = s.responses ++ [r] ∧ r.status ≠ .invalidBlockLength ∧ r.status ≠ .keyNotLoaded) ∧
  ∀ (off : Byte) (b : List Byte) (s : State), ∀ i ∈ [Instr.encrypt off b, Instr.decrypt off b],
    ∃ t r, exec i s = .next t ∧ t.responses = s.responses ++ [r] ∧
      (r.status = .keyNotLoaded ↔ s.kv = false) ∧
      (r.status = .invalidBlockLength ↔ s.kv = true ∧ off.toNat + 8 > b.length) ∧
      (r.status = .ok ↔ s.kv = true ∧ off.toNat + 8 ≤ b.length) ∧
      (r.result.isSome = true ↔ r.status = .ok)

/-- R159, R160: a host command that answers with an error writes no state and gives no result bytes. -/
def Obligations.ErrorsWriteNoState : Prop :=
  ∀ (i : Instr) (s t : State) (r : Response), HostCommand i → exec i s = .next t →
    t.responses = s.responses ++ [r] → r.status ≠ .ok →
    r.result = none ∧ t = { s with responses := s.responses ++ [r] }

/-- R140: block commands change no state, and each one's response depends only on its own request and on the
schedules. -/
def Obligations.BlockCommandsArePure : Prop :=
  ∀ (off : Byte) (b : List Byte), ∀ i ∈ [Instr.encrypt off b, Instr.decrypt off b],
    ∃ f : Engine → Response, ∀ s : State, exec i s = .next { s with responses := s.responses ++ [f s.engine] }

/-- R72, R47, U13: inputs the rules call ignored change nothing: LOADKEY's `off`, and the payload bytes outside the block,
so that one block at two places in two payloads gives one outcome. -/
def Obligations.IgnoredInputsChangeNothing : Prop :=
  (∀ (off off' : Byte) (b : List Byte) (s : State), exec (.loadKey off b) s = exec (.loadKey off' b) s) ∧
  (∀ (off off' : Byte) (b b' : List Byte) (s : State),
    off.toNat + 8 ≤ b.length → off'.toNat + 8 ≤ b'.length →
    (∀ j < 8, b[off.toNat + j]? = b'[off'.toNat + j]?) →
    exec (.encrypt off b) s = exec (.encrypt off' b') s ∧ exec (.decrypt off b) s = exec (.decrypt off' b') s)

/-- R141, the headline at the host's side: with the schedules of a key in place (R23), encrypting and then decrypting
returns the block, and decrypting and then encrypting does; and the document's known-answer vector. -/
def Obligations.CommandsRoundTrip : Prop :=
  (∀ key : Key, key = #v[0x00, 0x01, 0x00, 0x02, 0x00, 0x03, 0x00, 0x04, 0x00, 0x05, 0x00, 0x06, 0x00, 0x07, 0x00, 0x08] →
    crypt #v[0x00, 0x00, 0x00, 0x01, 0x00, 0x02, 0x00, 0x03] (kexp key) =
      #v[0x11, 0xFB, 0xED, 0x2B, 0x01, 0x98, 0x6D, 0xE5] ∧
    crypt #v[0x11, 0xFB, 0xED, 0x2B, 0x01, 0x98, 0x6D, 0xE5] (kinv (kexp key)) =
      #v[0x00, 0x00, 0x00, 0x01, 0x00, 0x02, 0x00, 0x03]) ∧
  ∀ (s : State) (blk : Block), ScheduleInv s → s.kv = true →
    (∃ c : Block, ∃ t : State, exec (.encrypt 0 blk.toList) s = .next t ∧
      t = { s with responses := s.responses ++ [⟨.ok, some c⟩] } ∧
      exec (.decrypt 0 c.toList) t = .next { t with responses := t.responses ++ [⟨.ok, some blk⟩] }) ∧
    (∃ p : Block, ∃ t : State, exec (.decrypt 0 blk.toList) s = .next t ∧
      t = { s with responses := s.responses ++ [⟨.ok, some p⟩] } ∧
      exec (.encrypt 0 p.toList) t = .next { t with responses := t.responses ++ [⟨.ok, some blk⟩] })

/-- R33, R51 (a), R178: a LOADKEY may follow another, and a block command after it uses the new key alone. -/
def Obligations.NewKeyAppliesToEverythingAfterIt : Prop :=
  ∀ (off off' : Byte) (key : Key) (b : List Byte) (blk : Block) (s : State), HoldsBlock b off'.toNat blk →
    ∃ t : State, exec (.loadKey off key.toList) s = .next t ∧
      exec (.encrypt off' b) t = .next { t with responses := t.responses ++ [⟨.ok, some (crypt blk (kexp key))⟩] } ∧
      exec (.decrypt off' b) t =
        .next { t with responses := t.responses ++ [⟨.ok, some (crypt blk (kinv (kexp key)))⟩] }

/-- R183, R10: every instruction, on every operands and in every state, answers a next state; and the three host commands
answer exactly one response. -/
def Obligations.EveryInstructionCompletes : Prop :=
  ∀ (i : Instr) (s : State), ∃ t, exec i s = .next t ∧ t.port = s.port ∧
    (HostCommand i → ∃ r, t.responses = s.responses ++ [r]) ∧ (¬ HostCommand i → t.responses = s.responses)

/-! ### Requests, responses and the command word (30_encoding.md) -/

/-- R70: the complete map of the command word. -/
def Obligations.OpcodeMapIsComplete : Prop :=
  lookupOp 0x00 = some .encrypt ∧ lookupOp 0x01 = some .decrypt ∧ lookupOp 0x02 = some .loadKey ∧
  (∀ cw : Byte, 0x03 ≤ cw.toNat ∧ cw.toNat ≤ 0x7F ∨ 0x8D ≤ cw.toNat → lookupOp cw = none) ∧
  [0x80, 0x81, 0x82, 0x83, 0x84, 0x85, 0x86, 0x87, 0x88, 0x89, 0x8A, 0x8B, 0x8C].map lookupOp =
    ([.add, .addInv, .mul, .mulInv, .xor, .copy, .pack16, .unpack16, .kexp, .kinv, .round, .outt, .crypt]
      : List Op).map some ∧
  (∀ row ∈ opcodeTable, row.mask = 0xFF ∧ row.value = row.op.code) ∧
  opcodeTable.Pairwise (fun p q => p.value &&& (p.mask &&& q.mask) ≠ q.value &&& (p.mask &&& q.mask))

/-- R61: the fields of the command word, the meaning of its classes, and the direction bit of the two block commands. -/
def Obligations.CommandWordFields : Prop :=
  (∀ cw : Byte, cw = cwClass cw ++ cwFunction cw) ∧
  (∀ o ∈ [Op.encrypt, Op.decrypt, Op.loadKey], cwClass o.code = 0x0) ∧
  (∀ o ∈ [Op.add, .addInv, .mul, .mulInv, .xor, .copy, .pack16, .unpack16, .kexp, .kinv, .round, .outt, .crypt],
    cwClass o.code = 0x8) ∧
  (∀ cw : Byte, cwClass cw ≠ 0x0 → cwClass cw ≠ 0x8 → lookupOp cw = none) ∧
  cwDirection Op.encrypt.code = false ∧ cwDirection Op.decrypt.code = true

/-- R73 (and R60's byte string): decoding an encoded well-formed host command, with anything after it, gives the command and what follows;
its length is `3 + n` bytes. -/
def Obligations.DecodeOfEncodeIsTheCommand : Prop :=
  ∀ (i : Instr) (rest : List Byte), HostCommand i → i.wellFormed = true →
    decodeRequest (encode i ++ rest) = .command i rest ∧
    ∃ n : Byte, (encode i)[2]? = some n ∧ (encode i).length = 3 + n.toNat

/-- The other direction: a request reads as one command only, and that command's encoding is the bytes read. -/
def Obligations.EncodeOfDecodeIsTheRequest : Prop :=
  ∀ (bs : List Byte) (i : Instr) (rest : List Byte), decodeRequest bs = .command i rest →
    HostCommand i ∧ i.wellFormed = true ∧ encode i ++ rest = bs

/-- R63: the code of a unit row names its row and is no request. That `encode` writes the code alone, with no bits for the
row's inputs, is the model's choice (log 3). -/
def Obligations.UnitCodesNameTheirRows : Prop :=
  ∀ i : Instr, ¬ HostCommand i →
    encode i = [i.op.code] ∧ lookupOp i.op.code = some i.op ∧
    ∀ fields, decodeRequest (encode i ++ fields) = .unitName i.op.code

/-- Requests of spec/95_test_vectors.md, section 3 (P1 step 2, P3 step 5, P3 step 2, P4 step 2, P5 steps 7 and 8), written
out byte by byte, read as the commands they stand for. -/
def Obligations.RequestsOfTheSpecDecode : Prop :=
  decodeRequest [0x00, 0x00, 0x08, 0x00, 0x00, 0x00, 0x01, 0x00, 0x02, 0x00, 0x03] =
    .command (.encrypt 0 [0x00, 0x00, 0x00, 0x01, 0x00, 0x02, 0x00, 0x03]) [] ∧
  decodeRequest [0x02, 0x00, 0x00] = .command (.loadKey 0 []) [] ∧
  decodeRequest [0x01, 0x00, 0x07, 0x00, 0x00, 0x00, 0x01, 0x00, 0x02, 0x00] =
    .command (.decrypt 0 [0x00, 0x00, 0x00, 0x01, 0x00, 0x02, 0x00]) [] ∧
  decodeRequest [0x00, 0x03, 0x0C, 0xAA, 0xBB, 0xCC, 0x00, 0x00, 0x00, 0x01, 0x00, 0x02, 0x00, 0x03, 0xDD, 0x03] =
    .command (.encrypt 3 [0xAA, 0xBB, 0xCC, 0x00, 0x00, 0x00, 0x01, 0x00, 0x02, 0x00, 0x03, 0xDD]) [0x03] ∧
  decodeRequest [0x03, 0x00, 0x00] = .reserved 0x03 ∧ decodeRequest [0x82, 0x00, 0x04] = .unitName 0x82

/-- R64 (and R150's codes): the byte string of a response, and when it has result bytes. -/
def Obligations.ResponseFormat : Prop :=
  statusCode .ok = 0 ∧ statusCode .invalidKeyLength = 1 ∧ statusCode .invalidBlockLength = 2 ∧
  statusCode .keyNotLoaded = 3 ∧
  (∀ st : Status, responseBytes ⟨st, none⟩ = [0#6 ++ statusCode st]) ∧
  (∀ (st : Status) (o : Block), responseBytes ⟨st, some o⟩ = (0#6 ++ statusCode st) :: o.toList ∧
    (responseBytes ⟨st, some o⟩).length = 9) ∧
  (∀ (i : Instr) (s t : State) (r : Response), HostCommand i → exec i s = .next t → t.responses = s.responses ++ [r] →
    (r.result ≠ none ↔ r.status = .ok ∧ ∀ off b, i ≠ .loadKey off b))

/-! ### The machine (10_state.md, 20_memory.md, 70_reset_and_hazards.md) -/

/-- A step runs the decoded instruction: when the bytes at the port read as a command, the step is `exec` of it at the state
whose port holds what follows (R51, R73). -/
def Obligations.StepRunsTheDecodedRequest : Prop :=
  ∀ (s : State) (bs rest : List Byte) (evs : List PortEvent) (i : Instr),
    s.port = .bytes bs :: evs → decodeRequest bs = .command i rest →
    step s = exec i { s with port := if rest = [] then evs else .bytes rest :: evs }

/-- R71: a request whose command word is not 0x00, 0x01 or 0x02 is refused, by a refusal that names the code, whatever
its other fields are and whatever the state is. -/
def Obligations.StepRefusesEveryOtherCommandWord : Prop :=
  ∀ (s : State) (cw : Byte) (fields : List Byte) (evs : List PortEvent),
    s.port = .bytes (cw :: fields) :: evs → cw ≠ 0x00 → cw ≠ 0x01 → cw ≠ 0x02 →
    step s = .refused (if 0x80 ≤ cw.toNat ∧ cw.toNat ≤ 0x8C then .unitNameInRequest cw else .reservedCommandWord cw)

/-- A part of a request is a move R143 does not give the host; the model is stuck on it (U7, log 4). -/
def Obligations.PartOfARequestIsStuck : Prop :=
  ∀ (s : State) (i : Instr) (k : Nat) (evs : List PortEvent), HostCommand i → i.wellFormed = true →
    0 < k → k < (encode i).length → s.port = .bytes ((encode i).take k) :: evs →
    step s = .fault .incompleteRequest

/-- R32: what reset leaves: `KV` is 0, `EK` and `DK` hold no value, and the core is ready for a request: whatever request the
host sends, the next step runs it. What the port list holds at reset is the model's (log 2) and is not said. -/
def Obligations.ResetLeavesNoKeyAndAReadyCore : Prop :=
  State.reset.kv = false ∧ State.reset.ek = none ∧ State.reset.dk = none ∧
  ∀ i : Instr, HostCommand i → i.wellFormed = true →
    step { State.reset with port := [.bytes (encode i)] } = exec i { State.reset with port := [] }

/-- R170, R172: reset clears `KV` and takes the schedules' values, answers nothing, and drops the request it interrupts;
what it leaves of the core does not depend on what came before; and no step but a reset clears `KV`. That a reset is an
event with the bytes it interrupts, that the events behind it stay at the port and that earlier responses stay delivered
is the model's (log 7). What becomes of `unitOut` is the model's (log 3) and is not said. -/
def Obligations.ResetIsTheOnlyWayToClearKV : Prop :=
  (∀ (s : State) (inFlight : List Byte) (evs : List PortEvent), s.port = .reset inFlight :: evs →
    ∃ t, step s = .next t ∧ t.kv = false ∧ t.ek = none ∧ t.dk = none ∧ t.engine = State.reset.engine ∧
      t.responses = s.responses ∧ t.port = evs) ∧
  (∀ s t : State, step s = .next t → s.kv = true → t.kv = false → ∃ inFlight evs, s.port = .reset inFlight :: evs)

/-- R24, R33, R22: `EK`, `DK` and `KV` change only at a LOADKEY with status OK (all at once) and at reset. -/
def Obligations.SchedulesChangeOnlyByLoadKeyOrReset : Prop :=
  ∀ s t : State, step s = .next t → t.engine ≠ s.engine →
    (∃ inFlight evs, s.port = .reset inFlight :: evs ∧ t.kv = false) ∨
    (∃ (bs rest : List Byte) (evs : List PortEvent) (off : Byte) (key : Key),
      s.port = .bytes bs :: evs ∧ decodeRequest bs = .command (.loadKey off key.toList) rest ∧
      t.responses = s.responses ++ [⟨.ok, none⟩] ∧
      t.kv = true ∧ t.ek = some (kexp key) ∧ t.dk = some (kinv (kexp key)))

/-- R23: every step, from every state that has it, keeps the invariant of the schedules. -/
def Obligations.EveryStepKeepsTheScheduleInvariant : Prop :=
  ∀ s t : State, ScheduleInv s → step s = .next t → ScheduleInv t

/-- The invariant of the schedules holds after reset (R23, R32). -/
def Obligations.ResetHasTheScheduleInvariant : Prop := ScheduleInv State.reset

/-- R65, R51 (c): a step that takes a request delivers one response after those delivered before; every other step
delivers none; and no response is ever changed. The steps of an idle core and of an empty run of bytes are the model's
(log 2), and that a reset keeps what was delivered is too (log 7). -/
def Obligations.OneResponsePerAcceptedRequest : Prop :=
  ∀ s t : State, step s = .next t →
    (∀ (bs rest : List Byte) (evs : List PortEvent) (i : Instr),
      s.port = .bytes bs :: evs → decodeRequest bs = .command i rest → ∃ r, t.responses = s.responses ++ [r]) ∧
    ((s.port = [] ∨ (∃ evs, s.port = .bytes [] :: evs) ∨ ∃ inFlight evs, s.port = .reset inFlight :: evs) →
      t.responses = s.responses)

/-- R171, R174: without a key, every request of a block command answers KeyNotLoaded and leaves the core without a key. -/
def Obligations.WithoutAKeyBlockCommandsAnswerKeyNotLoaded : Prop :=
  ∀ (s : State) (off : Byte) (b rest : List Byte) (evs : List PortEvent), s.kv = false → b.length ≤ 255 →
    ∀ i ∈ [Instr.encrypt off b, Instr.decrypt off b], s.port = .bytes (encode i ++ rest) :: evs →
    ∃ t, step s = .next t ∧ t.kv = false ∧ t.responses = s.responses ++ [⟨.keyNotLoaded, none⟩]

/-- R26, R31: the model's own field is not observable: two states that differ in it alone take steps that differ in it
alone. -/
def Obligations.UnitOutputsAreUnobservable : Prop :=
  ∀ (s : State) (u : UnitOut),
    (∀ t, step s = .next t → ∃ v, step { s with unitOut := u } = .next { t with unitOut := v }) ∧
    (∀ r, step s = .fault r → step { s with unitOut := u } = .fault r) ∧
    (∀ r, step s = .refused r → step { s with unitOut := u } = .refused r)

/-- An idle core, with nothing at the port, stays as it is (R32; the model's choice, log 2). -/
def Obligations.IdleCoreStaysAsItIs : Prop := ∀ s : State, s.port = [] → step s = .next s

/-- The host's whole list of well-formed requests, sent at once, is executed in order without a stop: after as many steps
as there are requests, every one has its response (R51, R65, R183), and the port is empty unless the list was. The port
and the list of responses are the model's (log 2). -/
def Obligations.EveryProgramOfRequestsRunsToItsEnd : Prop :=
  ∀ (is : List Instr) (s : State), (∀ i ∈ is, HostCommand i ∧ i.wellFormed = true) →
    s.port = [.bytes (is.flatMap encode)] →
    ∃ t, run is.length s = .next t ∧ (is ≠ [] → t.port = []) ∧
      t.responses.length = s.responses.length + is.length ∧ s.responses <+: t.responses

/-- R60: the header `{cw, off, n}` and its three slices; the byte string `cw, off, n, b[0..n-1]` of a request, which is the
header's bytes and then the payload, `3 + n` bytes; the three host commands are requests of this form, and read so from
the parallel form too. -/
def Obligations.RequestIsTheHeaderAndThePayload : Prop :=
  (∀ cw off n : Byte,
    (requestHeader cw off n).extractLsb' 16 8 = cw ∧ (requestHeader cw off n).extractLsb' 8 8 = off ∧
    (requestHeader cw off n).extractLsb' 0 8 = n) ∧
  (∀ hdr : BitVec 24, requestHeader (headerCw hdr) (headerOff hdr) (headerLength hdr) = hdr) ∧
  (∀ (off : Byte) (b : List Byte),
    encode (.encrypt off b) = requestBytes 0x00 off b ∧ encode (.decrypt off b) = requestBytes 0x01 off b ∧
    encode (.loadKey off b) = requestBytes 0x02 off b) ∧
  ∀ (cw off : Byte) (b : List Byte), b.length ≤ 255 →
    ∃ n : Byte, n.toNat = b.length ∧
      requestBytes cw off b = [cw, off, n] ++ b ∧ (requestBytes cw off b).length = 3 + n.toNat ∧
      (let hdr := requestHeader cw off n
       requestBytes cw off b = [hdr.extractLsb' 16 8, hdr.extractLsb' 8 8, hdr.extractLsb' 0 8] ++ b) ∧
      decodeParallel (requestHeader 0x00 off n) b = .command (.encrypt off b) [] ∧
      decodeParallel (requestHeader 0x01 off n) b = .command (.decrypt off b) [] ∧
      decodeParallel (requestHeader 0x02 off n) b = .command (.loadKey off b) []
end

