-- ==== Sys2Proof/Laws/Decode.lean ====
section
/-!
SUPPORT. The small lemmas of the decoder and the encoder.
-/

namespace Sys2Proof

theorem lookupOp_code (o : Op) : lookupOp o.code = some o := by cases o <;> decide

/-- A row is found only under its own code. -/
theorem code_of_lookupOp {cw : Byte} {o : Op} (h : lookupOp cw = some o) : o.code = cw := by
  simp only [lookupOp, Option.map_eq_some_iff] at h
  obtain ⟨row, hrow, rfl⟩ := h
  have hm := List.mem_of_find?_eq_some hrow
  have hc := List.find?_some hrow
  have table : ∀ r ∈ opcodeTable, r.mask = 0xFF#8 ∧ r.value = r.op.code := by decide
  obtain ⟨hmask, hval⟩ := table row hm
  have : cw &&& 0xFF#8 = cw := BitVec.and_allOnes
  simp only [OpcodeRow.covers, hmask, this, beq_iff_eq, hval] at hc
  exact hc.symm

theorem Op.code_injective {o p : Op} (h : o.code = p.code) : o = p :=
  Option.some.inj (by rw [← lookupOp_code o, ← lookupOp_code p, h])

@[simp] theorem requestBytes_length (cw off : Byte) (b : List Byte) : (requestBytes cw off b).length = 3 + b.length := by
  simp only [requestBytes, List.length_cons]
  omega

/-- Bit `i` of a header: `n` lowest, then `off`, then `cw`. -/
theorem getLsbD_requestHeader (cw off n : Byte) (i : Nat) : (requestHeader cw off n).getLsbD i =
    if i < 8 then n.getLsbD i else if i - 8 < 8 then off.getLsbD (i - 8) else cw.getLsbD (i - 8 - 8) := by
  simp only [requestHeader, BitVec.getLsbD_append]

/-- The slices of a header are its fields (R60). -/
@[simp] theorem headerCw_requestHeader (cw off n : Byte) : headerCw (requestHeader cw off n) = cw := by
  apply BitVec.eq_of_getLsbD_eq; intro i hi
  have h1 : ¬ 16 + i < 8 := by omega
  have h2 : ¬ 16 + i - 8 < 8 := by omega
  have h3 : 16 + i - 8 - 8 = i := by omega
  simp only [headerCw, BitVec.getLsbD_extractLsb', getLsbD_requestHeader, h1, h2, h3, hi, decide_true,
    Bool.true_and, if_false]

@[simp] theorem headerOff_requestHeader (cw off n : Byte) : headerOff (requestHeader cw off n) = off := by
  apply BitVec.eq_of_getLsbD_eq; intro i hi
  have h1 : ¬ 8 + i < 8 := by omega
  have h2 : 8 + i - 8 = i := by omega
  simp only [headerOff, BitVec.getLsbD_extractLsb', getLsbD_requestHeader, h1, h2, hi, decide_true, Bool.true_and,
    if_false, if_true]

@[simp] theorem headerLength_requestHeader (cw off n : Byte) : headerLength (requestHeader cw off n) = n := by
  apply BitVec.eq_of_getLsbD_eq; intro i hi
  simp only [headerLength, BitVec.getLsbD_extractLsb', getLsbD_requestHeader, Nat.zero_add, hi, decide_true, Bool.true_and, if_true]

/-- A header is made of its slices (R60). -/
theorem requestHeader_slices (hdr : BitVec 24) :
    requestHeader (headerCw hdr) (headerOff hdr) (headerLength hdr) = hdr := by
  apply BitVec.eq_of_getLsbD_eq; intro i hi
  simp only [getLsbD_requestHeader, headerCw, headerOff, headerLength, BitVec.getLsbD_extractLsb']
  split
  · simp only [*, decide_true, Bool.true_and, Nat.zero_add]
  · split
    · rename_i h1 h2
      rw [show 8 + (i - 8) = i by omega]; simp [h2]
    · rw [show 16 + (i - 8 - 8) = i by omega]; simp; intro; omega

/-- The byte string of a request is its header's bytes, then the payload (R60). -/
theorem requestBytes_eq_headerBytes (cw off : Byte) (b : List Byte) :
    requestBytes cw off b = headerBytes (requestHeader cw off (BitVec.ofNat 8 b.length)) ++ b := by
  simp [requestBytes, headerBytes]

/-- The length field of a payload that fits says the payload's length (R60). -/
theorem lengthField_toNat {b : List Byte} (h : payloadFits b = true) : (BitVec.ofNat 8 b.length).toNat = b.length := by
  simp [payloadFits, Config.maxPayload, Config.lenBits] at h
  simp
  omega

/-- Decoding the fields of a request that was written out, with anything after it. -/
theorem decodeFields_request {o : Op} {cw off : Byte} {b rest : List Byte} {i : Instr} (hb : payloadFits b = true)
    (hi : hostCommand o off b = some i) :
    decodeFields o cw (off :: BitVec.ofNat 8 b.length :: (b ++ rest)) = .command i rest := by
  simp [decodeFields, lengthField_toNat hb, hi]

end Sys2Proof
end

