-- ==== Sys2Proof/Laws/State.lean ====
section
/-!
SUPPORT. One lemma per field per update of State, and what the readers of the engine give on each of its two forms.
-/

namespace Sys2Proof.Machine

/-! ### The engine's readers -/

@[simp] theorem State.kv_noKey (p r u) : State.kv ⟨.noKey, p, r, u⟩ = false := rfl
@[simp] theorem State.kv_keyed (ek dk p r u) : State.kv ⟨.keyed ek dk, p, r, u⟩ = true := rfl
@[simp] theorem State.ek_noKey (p r u) : State.ek ⟨.noKey, p, r, u⟩ = none := rfl
@[simp] theorem State.ek_keyed (ek dk p r u) : State.ek ⟨.keyed ek dk, p, r, u⟩ = some ek := rfl
@[simp] theorem State.dk_noKey (p r u) : State.dk ⟨.noKey, p, r, u⟩ = none := rfl
@[simp] theorem State.dk_keyed (ek dk p r u) : State.dk ⟨.keyed ek dk, p, r, u⟩ = some dk := rfl

/-- `KV = 0` exactly when the engine holds no key (R24). -/
theorem State.kv_eq_false_iff (s : State) : s.kv = false ↔ s.engine = .noKey := by
  obtain ⟨e, p, r, u⟩ := s
  cases e <;> simp

/-- `KV = 1` exactly when the engine holds two schedules (R24). -/
theorem State.kv_eq_true_iff (s : State) : s.kv = true ↔ ∃ ek dk, s.engine = .keyed ek dk := by
  obtain ⟨e, p, r, u⟩ := s
  cases e <;> simp

/-- `EK` holds a value exactly when the engine is keyed with it (R24, R32). -/
theorem State.ek_eq_some_iff (s : State) (z : Schedule) : s.ek = some z ↔ ∃ dk, s.engine = .keyed z dk := by
  obtain ⟨e, p, r, u⟩ := s
  cases e <;> simp

/-- `DK` holds a value exactly when the engine is keyed with it (R24, R32). -/
theorem State.dk_eq_some_iff (s : State) (z : Schedule) : s.dk = some z ↔ ∃ ek, s.engine = .keyed ek z := by
  obtain ⟨e, p, r, u⟩ := s
  cases e <;> simp

/-- The readers look at the engine alone. -/
theorem State.kv_congr {s t : State} (h : t.engine = s.engine) : t.kv = s.kv := by simp only [State.kv, h]

theorem State.ek_congr {s t : State} (h : t.engine = s.engine) : t.ek = s.ek := by simp only [State.ek, h]

theorem State.dk_congr {s t : State} (h : t.engine = s.engine) : t.dk = s.dk := by simp only [State.dk, h]

/-! ### respond -/

@[simp] theorem respond_engine (st o s) : (respond st o s).engine = s.engine := rfl
@[simp] theorem respond_port (st o s) : (respond st o s).port = s.port := rfl
@[simp] theorem respond_responses (st o s) : (respond st o s).responses = s.responses ++ [⟨st, o⟩] := rfl
@[simp] theorem respond_unitOut (st o s) : (respond st o s).unitOut = s.unitOut := rfl

/-! ### installSchedules -/

@[simp] theorem installSchedules_engine (ek dk s) : (installSchedules ek dk s).engine = .keyed ek dk := rfl
@[simp] theorem installSchedules_port (ek dk s) : (installSchedules ek dk s).port = s.port := rfl
@[simp] theorem installSchedules_responses (ek dk s) : (installSchedules ek dk s).responses = s.responses := rfl
@[simp] theorem installSchedules_unitOut (ek dk s) : (installSchedules ek dk s).unitOut = s.unitOut := rfl

/-! ### applyReset -/

@[simp] theorem applyReset_engine (s) : (applyReset s).engine = .noKey := rfl
@[simp] theorem applyReset_port (s) : (applyReset s).port = s.port := rfl
@[simp] theorem applyReset_responses (s) : (applyReset s).responses = s.responses := rfl
@[simp] theorem applyReset_unitOut (s) : (applyReset s).unitOut = .none := rfl

/-! ### withFetchWord -/

@[simp] theorem State.withFetchWord_engine (s n w) : (State.withFetchWord s n w).engine = s.engine := rfl
@[simp] theorem State.withFetchWord_port (s n w) :
    (State.withFetchWord s n w).port = .bytes (tableBytes n w) :: s.port := rfl
@[simp] theorem State.withFetchWord_responses (s n w) : (State.withFetchWord s n w).responses = s.responses := rfl
@[simp] theorem State.withFetchWord_unitOut (s n w) : (State.withFetchWord s n w).unitOut = s.unitOut := rfl

end Sys2Proof.Machine
end

