-- ==== Sys2Proof/Laws/Ops.lean ====
section
/-!
SUPPORT. For each shared operation, everything it can do, said once.
-/

namespace Sys2Proof.Machine

/-- R159: an error answers a next state that differs in one more response. -/
theorem raiseError_eq_next_iff (e : Status) (s t : State) : raiseError e s = .next t ↔ t = respond e none s := by
  simp [raiseError, eq_comm]

theorem respondOK_eq_next_iff (o : Option Block) (s t : State) : respondOK o s = .next t ↔ t = respond .ok o s := by
  simp [respondOK, eq_comm]

theorem unitResult_eq_next_iff (o : UnitOut) (s t : State) :
    unitResult o s = .next t ↔ t = { s with unitOut := o } := by
  simp [unitResult, eq_comm]

/-- A block command without a key (R137, R153). -/
theorem blockCommand_noKey {s : State} (h : s.engine = .noKey) (dir off b) :
    blockCommand dir off b s = .next (respond .keyNotLoaded none s) := by
  simp only [blockCommand, h, raiseError]

/-- A block command with a key and too few bytes (R137, R152). -/
theorem blockCommand_short {s : State} {ek dk} (h : s.engine = .keyed ek dk) (dir) {off b} (hb : b.length < off + 8) :
    blockCommand dir off b s = .next (respond .invalidBlockLength none s) := by
  have : ¬ blockAvailable b off := by simp only [blockAvailable]; omega
  simp only [blockCommand, h, this, dite_false, raiseError]

/-- A block command with a key and a block (R137, R139). -/
theorem blockCommand_ok {s : State} {ek dk} (h : s.engine = .keyed ek dk) (dir) {off b} (hb : blockAvailable b off) :
    blockCommand dir off b s =
      .next (respond .ok (some (crypt (blockOperand b off hb) (selectSchedule dir ek dk))) s) := by
  simp only [blockCommand, h, hb, dite_true, respondOK]

/-- Everything a block command can do: one of three answers, the state otherwise as before. -/
theorem blockCommand_cases (dir : Bool) (off : Nat) (b : List Byte) (s : State) :
    (s.engine = .noKey ∧ blockCommand dir off b s = .next (respond .keyNotLoaded none s)) ∨
    (∃ ek dk, s.engine = .keyed ek dk ∧ b.length < off + 8 ∧
      blockCommand dir off b s = .next (respond .invalidBlockLength none s)) ∨
    (∃ ek dk, ∃ hb : blockAvailable b off, s.engine = .keyed ek dk ∧
      blockCommand dir off b s =
        .next (respond .ok (some (crypt (blockOperand b off hb) (selectSchedule dir ek dk))) s)) := by
  cases h : s.engine with
  | noKey => exact .inl ⟨rfl, blockCommand_noKey h dir off b⟩
  | keyed ek dk =>
    by_cases hb : blockAvailable b off
    · exact .inr (.inr ⟨ek, dk, hb, rfl, blockCommand_ok h dir hb⟩)
    · have hb' : b.length < off + 8 := by simp only [blockAvailable] at hb; omega
      exact .inr (.inl ⟨ek, dk, rfl, hb', blockCommand_short h dir hb'⟩)

/-- LOADKEY with 16 bytes (R135). -/
theorem execLoadKey_ok (off : Byte) {b : List Byte} (h : b.length = 16) (s : State) :
    execLoadKey off b s = .next (respond .ok none
      (installSchedules (kexp (keyOperand b h)) (kinv (kexp (keyOperand b h))) s)) := by
  simp only [execLoadKey, h, dite_true, respondOK]

/-- LOADKEY with any other length (R151). -/
theorem execLoadKey_error (off : Byte) {b : List Byte} (h : b.length ≠ 16) (s : State) :
    execLoadKey off b s = .next (respond .invalidKeyLength none s) := by
  simp only [execLoadKey, h, dite_false, raiseError]

/-- The key operand of a key's own bytes is the key. -/
theorem keyOperand_toList (key : Key) (h : key.toList.length = 16) : keyOperand key.toList h = key := by
  ext i hi
  simp [keyOperand]

/-- Sixteen bytes are the bytes of their key operand. -/
theorem toList_keyOperand (b : List Byte) (h : b.length = 16) : (keyOperand b h).toList = b := by
  apply List.ext_getElem
  · simp [h]
  · intro i h1 h2
    simp [keyOperand]

/-- The block operand is the block the payload holds at `off`. -/
theorem blockOperand_eq {b : List Byte} {off : Nat} {blk : Block} (hb : blockAvailable b off)
    (h : HoldsBlock b off blk) : blockOperand b off hb = blk := by
  ext i hi
  have := h ⟨i, hi⟩
  simp only [List.getElem?_eq_some_iff] at this
  obtain ⟨_, hj⟩ := this
  simp [blockOperand, hj]

/-- A payload that holds a block has 8 bytes from `off` on. -/
theorem blockAvailable_of_holdsBlock {b : List Byte} {off : Nat} {blk : Block} (h : HoldsBlock b off blk) :
    blockAvailable b off := by
  have := h ⟨7, by omega⟩
  simp only [List.getElem?_eq_some_iff] at this
  obtain ⟨hlt, _⟩ := this
  simp only [blockAvailable]
  omega

end Sys2Proof.Machine
end

