-- ==== Sys2Proof/Laws/Exec.lean ====
section
/-!
SUPPORT. `exec` unfolded, once, for every constructor.
-/

namespace Sys2Proof.Machine

@[simp] theorem exec_encrypt (off b s) : exec (.encrypt off b) s = blockCommand false off.toNat b s := rfl
@[simp] theorem exec_decrypt (off b s) : exec (.decrypt off b) s = blockCommand true off.toNat b s := rfl
@[simp] theorem exec_loadKey (off b s) : exec (.loadKey off b) s = execLoadKey off b s := rfl
@[simp] theorem exec_add (a b s) : exec (.add a b) s = .next { s with unitOut := .word (add a b) } := rfl
@[simp] theorem exec_addInv (a s) : exec (.addInv a) s = .next { s with unitOut := .word (addInv a) } := rfl
@[simp] theorem exec_mul (a b s) : exec (.mul a b) s = .next { s with unitOut := .word (mul a b) } := rfl
@[simp] theorem exec_mulInv (a s) : exec (.mulInv a) s = .next { s with unitOut := .word (mulInv a) } := rfl
@[simp] theorem exec_xor (a b s) : exec (.xor a b) s = .next { s with unitOut := .word (xorWord a b) } := rfl
@[simp] theorem exec_copy (a s) : exec (.copy a) s = .next { s with unitOut := .word (copyWord a) } := rfl
@[simp] theorem exec_pack16 (hi lo s) : exec (.pack16 hi lo) s = .next { s with unitOut := .word (pack16 hi lo) } := rfl
@[simp] theorem exec_unpack16 (v s) :
    exec (.unpack16 v) s = .next { s with unitOut := .bytes (hiByte v) (loByte v) } := rfl
@[simp] theorem exec_kexp (key s) : exec (.kexp key) s = .next { s with unitOut := .schedule (kexp key) } := rfl
@[simp] theorem exec_kinv (e s) : exec (.kinv e) s = .next { s with unitOut := .schedule (kinv e) } := rfl
@[simp] theorem exec_round (x k s) : exec (.round x k) s = .next { s with unitOut := .quad (roundFn x k) } := rfl
@[simp] theorem exec_outt (x k s) : exec (.outt x k) s = .next { s with unitOut := .quad (outFn x k) } := rfl
@[simp] theorem exec_crypt (blk z s) : exec (.crypt blk z) s = .next { s with unitOut := .block (crypt blk z) } := rfl

/-- Everything an instruction can do to the state: a unit operation writes `unitOut`; a host command delivers one response,
and LOADKEY with 16 bytes writes the engine too. -/
theorem exec_cases (i : Instr) (s : State) :
    (¬ HostCommand i ∧ ∃ o, exec i s = .next { s with unitOut := o }) ∨
    (HostCommand i ∧ ∃ st o, exec i s = .next (respond st o s) ∧ (o ≠ none → st = .ok)) ∨
    (∃ off b, ∃ h : b.length = 16, i = .loadKey off b ∧ exec i s = .next (respond .ok none
      (installSchedules (kexp (keyOperand b h)) (kinv (kexp (keyOperand b h))) s))) := by
  cases i with
  | encrypt off b =>
    rcases blockCommand_cases false off.toNat b s with ⟨_, h⟩ | ⟨_, _, _, _, h⟩ | ⟨_, _, _, _, h⟩ <;>
      exact .inr (.inl ⟨trivial, _, _, h, by simp⟩)
  | decrypt off b =>
    rcases blockCommand_cases true off.toNat b s with ⟨_, h⟩ | ⟨_, _, _, _, h⟩ | ⟨_, _, _, _, h⟩ <;>
      exact .inr (.inl ⟨trivial, _, _, h, by simp⟩)
  | loadKey off b =>
    by_cases h : b.length = 16
    · exact .inr (.inr ⟨off, b, h, rfl, execLoadKey_ok off h s⟩)
    · exact .inr (.inl ⟨trivial, _, _, execLoadKey_error off h s, by simp⟩)
  | add a b => exact .inl ⟨id, _, rfl⟩
  | addInv a => exact .inl ⟨id, _, rfl⟩
  | mul a b => exact .inl ⟨id, _, rfl⟩
  | mulInv a => exact .inl ⟨id, _, rfl⟩
  | xor a b => exact .inl ⟨id, _, rfl⟩
  | copy a => exact .inl ⟨id, _, rfl⟩
  | pack16 hi lo => exact .inl ⟨id, _, rfl⟩
  | unpack16 v => exact .inl ⟨id, _, rfl⟩
  | kexp key => exact .inl ⟨id, _, rfl⟩
  | kinv e => exact .inl ⟨id, _, rfl⟩
  | round x k => exact .inl ⟨id, _, rfl⟩
  | outt x k => exact .inl ⟨id, _, rfl⟩
  | crypt blk z => exact .inl ⟨id, _, rfl⟩

end Sys2Proof.Machine
end

