-- ==== Sys2Proof/Laws/KeyInverter.lean ====
section
/-!
SUPPORT. KINV read entry by entry, so that no proof unfolds its nine groups again.
-/

namespace Sys2Proof.Machine

theorem mapTable_length : mapTable.length = 52 := rfl

/-- The 52 words in order, each by its mapping-table entry. -/
theorem kinv_toList (e : Schedule) : (kinv e).toList = mapTable.map fun m => m.t.apply e[m.src.val] := rfl

/-- Word `i` of KINV, by entry `i` of the mapping table. -/
theorem kinv_getElem (e : Schedule) (i : Nat) (h : i < 52) :
    (kinv e)[i] = (mapTable[i]'(mapTable_length ▸ h)).t.apply e[(mapTable[i]'(mapTable_length ▸ h)).src.val] := by
  have hl : (kinv e)[i] = (kinv e).toList[i]'(by simp [h]) := (Vector.getElem_toList ..).symm
  rw [hl]
  simp only [kinv_toList, List.getElem_map]

/-- Entry `i` of the mapping table is the entry for destination `i`. -/
theorem mapTable_at_dst : ∀ m ∈ mapTable, mapTable[m.dst.val]? = some m := by decide

@[simp] theorem Transform.apply_copy (a : Word) : Transform.copy.apply a = a := rfl
@[simp] theorem Transform.apply_addInv (a : Word) : Transform.addInv.apply a = Sys2Proof.Machine.addInv a := rfl
@[simp] theorem Transform.apply_mulInv (a : Word) : Transform.mulInv.apply a = Sys2Proof.Machine.mulInv a := rfl

end Sys2Proof.Machine
end

