-- ==== Sys2Proof/Laws/KeySchedule.lean ====
section
/-!
SUPPORT. KEXP read word by word: a step of the expansion keeps the words before it, so word `8 + k` is the one that step `k`
wrote.
-/

namespace Sys2Proof.Machine

@[simp] theorem expandSteps_zero (key : Key) : expandSteps key 0 = keyWords key := rfl

/-- A step keeps every word written before it. -/
theorem expandSteps_succ_of_lt (key : Key) (k i : Nat) (h : i < 8 + k) :
    (expandSteps key (k + 1))[i]'(by omega) = (expandSteps key k)[i] := by
  simp only [expandSteps]
  exact Vector.getElem_push_lt h

/-- A step writes the word at its own index. -/
theorem expandSteps_succ_last (key : Key) (k : Nat) :
    (expandSteps key (k + 1))[8 + k]'(by omega) =
      rotateJoin ((expandSteps key k)[sourceA (8 + k)]'(sourceA_lt k))
        ((expandSteps key k)[sourceB (8 + k)]'(sourceB_lt k)) := by
  simp only [expandSteps]
  exact Vector.getElem_push_eq

/-- Later steps keep the words of earlier ones. -/
theorem expandSteps_add (key : Key) (k n i : Nat) (h : i < 8 + k) :
    (expandSteps key (k + n))[i]'(by omega) = (expandSteps key k)[i] := by
  induction n with
  | zero => rfl
  | succ n ih => exact (expandSteps_succ_of_lt key (k + n) i (by omega)).trans ih

/-- The words of the finished schedule are those of the step that wrote them. -/
theorem kexp_getElem_of_lt (key : Key) (k i : Nat) (hk : k ≤ 44) (h : i < 8 + k) :
    (kexp key)[i]'(by omega) = (expandSteps key k)[i] := by
  have finish : ∀ m, k ≤ m → ∀ hm : i < 8 + m, (expandSteps key m)[i] = (expandSteps key k)[i] := by
    intro m hm hi
    obtain ⟨n, rfl⟩ := Nat.exists_eq_add_of_le hm
    exact expandSteps_add key k n i h
  exact finish 44 hk (by omega)

end Sys2Proof.Machine
end

