-- ==== Sys2Proof/Laws/PerInstr.lean ====
section
/-!
SUPPORT. Statements for all instructions, one lemma per constructor. Family OpcodeByte: an instruction's encoding begins with the
code of its row, and the opcode map gives that row for that code (spec/30_encoding.md R62, R63, R70).
-/

namespace Sys2Proof.Laws.OpcodeByte

def Statement (i : Instr) : Prop := (encode i).head? = some i.op.code ∧ lookupOp i.op.code = some i.op

theorem encrypt (off payload) : Statement (.encrypt off payload) := ⟨rfl, lookupOp_code _⟩
theorem decrypt (off payload) : Statement (.decrypt off payload) := ⟨rfl, lookupOp_code _⟩
theorem loadKey (off payload) : Statement (.loadKey off payload) := ⟨rfl, lookupOp_code _⟩
theorem add (a b) : Statement (.add a b) := ⟨rfl, lookupOp_code _⟩
theorem addInv (a) : Statement (.addInv a) := ⟨rfl, lookupOp_code _⟩
theorem mul (a b) : Statement (.mul a b) := ⟨rfl, lookupOp_code _⟩
theorem mulInv (a) : Statement (.mulInv a) := ⟨rfl, lookupOp_code _⟩
theorem xor (a b) : Statement (.xor a b) := ⟨rfl, lookupOp_code _⟩
theorem copy (a) : Statement (.copy a) := ⟨rfl, lookupOp_code _⟩
theorem pack16 (hi lo) : Statement (.pack16 hi lo) := ⟨rfl, lookupOp_code _⟩
theorem unpack16 (v) : Statement (.unpack16 v) := ⟨rfl, lookupOp_code _⟩
theorem kexp (key) : Statement (.kexp key) := ⟨rfl, lookupOp_code _⟩
theorem kinv (e) : Statement (.kinv e) := ⟨rfl, lookupOp_code _⟩
theorem round (x k) : Statement (.round x k) := ⟨rfl, lookupOp_code _⟩
theorem outt (x k) : Statement (.outt x k) := ⟨rfl, lookupOp_code _⟩
theorem crypt (blk sched) : Statement (.crypt blk sched) := ⟨rfl, lookupOp_code _⟩

end Sys2Proof.Laws.OpcodeByte
end

