-- ==== Sys2Proof/Laws/Step.lean ====
section
/-!
SUPPORT. What one step can do, said once: one lemma for each form of the port, and the inversion of `step`.
-/

namespace Sys2Proof.Machine

theorem step_empty {s : State} (h : s.port = []) : step s = .next s := by simp only [step, fetch, h]

theorem step_emptyRun {s : State} {evs} (h : s.port = .bytes [] :: evs) : step s = .next { s with port := evs } := by
  simp only [step, fetch, h]

theorem step_reset {s : State} {inFlight evs} (h : s.port = .reset inFlight :: evs) :
    step s = .next (applyReset { s with port := evs }) := by
  simp only [step, fetch, h]

/-- A step over bytes is decided by how they decode. -/
theorem step_bytes {s : State} {cw fields evs} (h : s.port = .bytes (cw :: fields) :: evs) :
    step s = match decodeRequest (cw :: fields) with
      | .command i rest => exec i { s with port := requeue rest evs }
      | .unitName c => .refused (.unitNameInRequest c)
      | .reserved c => .refused (.reservedCommandWord c)
      | .incomplete => .fault .incompleteRequest := by
  simp only [step, fetch, h, fetchRequest]
  cases decodeRequest (cw :: fields) <;> rfl

/-- Everything a step that answers a next state can have done. -/
theorem step_cases {s t : State} (h : step s = .next t) :
    (s.port = [] ∧ t = s) ∨
    (∃ evs, s.port = .bytes [] :: evs ∧ t = { s with port := evs }) ∨
    (∃ inFlight evs, s.port = .reset inFlight :: evs ∧ t = applyReset { s with port := evs }) ∨
    (∃ bs rest evs i, s.port = .bytes bs :: evs ∧ decodeRequest bs = .command i rest ∧
      exec i { s with port := requeue rest evs } = .next t) := by
  cases hp : s.port with
  | nil =>
    rw [step_empty hp] at h
    exact .inl ⟨rfl, by injection h with h; exact h.symm⟩
  | cons ev evs =>
    cases ev with
    | reset inFlight =>
      rw [step_reset hp] at h
      exact .inr (.inr (.inl ⟨inFlight, evs, rfl, by injection h with h; exact h.symm⟩))
    | bytes bs =>
      cases bs with
      | nil =>
        rw [step_emptyRun hp] at h
        exact .inr (.inl ⟨evs, rfl, by injection h with h; exact h.symm⟩)
      | cons cw fields =>
        rw [step_bytes hp] at h
        cases hd : decodeRequest (cw :: fields) with
        | command i rest =>
          rw [hd] at h
          exact .inr (.inr (.inr ⟨cw :: fields, rest, evs, i, rfl, hd, h⟩))
        | unitName c => rw [hd] at h; contradiction
        | reserved c => rw [hd] at h; contradiction
        | incomplete => rw [hd] at h; contradiction

/-! ### Runs -/

@[simp] theorem run_zero (s : State) : run 0 s = .next s := rfl

theorem run_succ_of_next {s t : State} (h : step s = .next t) (k : Nat) : run (k + 1) s = run k t := by
  simp only [run, h]

theorem coreRun_of_next (M : Host.Core) {s t : M.State} (h : M.step s = .next t) (k : Nat) :
    M.run (k + 1) s = M.run k t := by
  simp only [Host.Core.run, h]

theorem coreRun_of_fault (M : Host.Core) {s : M.State} {r : M.Fault} (h : M.step s = .fault r) (k : Nat) :
    M.run (k + 1) s = .fault r := by
  simp only [Host.Core.run, h]

theorem coreRun_of_refused (M : Host.Core) {s : M.State} {r : M.Refusal} (h : M.step s = .refused r) (k : Nat) :
    M.run (k + 1) s = .refused r := by
  simp only [Host.Core.run, h]

/-- A run is the host's run of the core. -/
theorem run_eq_core (k : Nat) (s : State) : run k s = Sys2Proof.core.run k s := by
  induction k generalizing s with
  | zero => rfl
  | succ k ih =>
    cases h : step s with
    | next t => exact (run_succ_of_next h k).trans ((ih t).trans (coreRun_of_next Sys2Proof.core h k).symm)
    | fault r =>
      rw [run, h]
      exact (coreRun_of_fault Sys2Proof.core h k).symm
    | refused r =>
      rw [run, h]
      exact (coreRun_of_refused Sys2Proof.core h k).symm

/-- What holds at a state and is kept by every step holds after every run from it. -/
theorem run_induction {P : State → Prop} (keep : ∀ s t, P s → step s = .next t → P t) :
    ∀ (k : Nat) (s t : State), P s → run k s = .next t → P t := by
  intro k
  induction k with
  | zero =>
    intro s t hs h
    injection h with h
    exact h ▸ hs
  | succ k ih =>
    intro s t hs h
    cases hstep : step s with
    | next u => exact ih u t (keep s u hs hstep) (run_succ_of_next hstep k ▸ h)
    | fault r => simp only [run, hstep] at h; contradiction
    | refused r => simp only [run, hstep] at h; contradiction

end Sys2Proof.Machine
end

