-- ==== Sys2Proof/Tests/Slice0.lean ====
section
/-!
SUPPORT. The model's own tests. Expected values come from spec/: its corner cases, its tables and its vectors
(spec/95_test_vectors.md), named at each test. The last part shows, for every statement with hypotheses, a state and operands
that meet them.
-/

namespace Sys2Proof.Tests

open Sys2Proof Sys2Proof.Machine

/-! ### Helpers -/

/-- The source's key K1 (95_test_vectors.md section 1.1). -/
def k1 : Key := #v[0x00, 0x01, 0x00, 0x02, 0x00, 0x03, 0x00, 0x04, 0x00, 0x05, 0x00, 0x06, 0x00, 0x07, 0x00, 0x08]

/-- K6 of section 2.2. -/
def k6 : Key := #v[0x10, 0x11, 0x12, 0x13, 0x14, 0x15, 0x16, 0x17, 0x18, 0x19, 0x1A, 0x1B, 0x1C, 0x1D, 0x1E, 0x1F]

/-- The source's plaintext and ciphertext. -/
def plain : Block := #v[0x00, 0x00, 0x00, 0x01, 0x00, 0x02, 0x00, 0x03]
def cipher : Block := #v[0x11, 0xFB, 0xED, 0x2B, 0x01, 0x98, 0x6D, 0xE5]

/-- A reset core with `evs` at its port. -/
def at_port (evs : List PortEvent) : State := { State.reset with port := evs }

/-- A core that holds the schedules of `key`, with `evs` at its port. -/
def keyed (key : Key) (evs : List PortEvent) : State :=
  { State.reset with engine := .keyed (kexp key) (kinv (kexp key)), port := evs }

/-- The response bytes of an outcome, one list a response; none for a stop. -/
def answers (o : Host.Outcome State Fault Refusal) : Option (List (List Byte)) :=
  match o with
  | .next s => some (s.responses.map responseBytes)
  | .fault _ => none
  | .refused _ => none

/-- `KV` of an outcome; none for a stop. -/
def kvOf (o : Host.Outcome State Fault Refusal) : Option Bool :=
  match o with
  | .next s => some s.kv
  | .fault _ => none
  | .refused _ => none

/-- What a unit operation put out. -/
def outOf (o : Host.Outcome State Fault Refusal) : Option UnitOut :=
  match o with
  | .next s => some s.unitOut
  | .fault _ => none
  | .refused _ => none

/-! ### WellFormed: one ill-formed term for each check -/

theorem test_wellFormed_refuses_long_encrypt : (Instr.encrypt 0 (List.replicate 256 0)).wellFormed = false := by decide +kernel
theorem test_wellFormed_refuses_long_decrypt : (Instr.decrypt 0 (List.replicate 256 0)).wellFormed = false := by decide +kernel
theorem test_wellFormed_refuses_long_loadKey : (Instr.loadKey 0 (List.replicate 256 0)).wellFormed = false := by decide +kernel
theorem test_wellFormed_accepts_longest : (Instr.encrypt 0xFF (List.replicate 255 0)).wellFormed = true := by decide +kernel

/-! ### Decoding: words written out from R60, R62, R63 -/

/-- P1 step 2: `cw` 0000 0000, `off` 0, `n` 8, eight bytes. -/
theorem test_decode_encrypt :
    decodeRequest [0b00000000, 0, 8, 0, 0, 0, 1, 0, 2, 0, 3] = .command (.encrypt 0 [0, 0, 0, 1, 0, 2, 0, 3]) [] := by
  decide

/-- P3 step 11: `cw` 0000 0001, `off` 255. -/
theorem test_decode_decrypt :
    decodeRequest [0b00000001, 0xFF, 8, 0x11, 0xFB, 0xED, 0x2B, 0x01, 0x98, 0x6D, 0xE5] =
      .command (.decrypt 255 [0x11, 0xFB, 0xED, 0x2B, 0x01, 0x98, 0x6D, 0xE5]) [] := by decide

/-- P4 step 7: `cw` 0000 0010, `off` 7, and what follows the request is kept. -/
theorem test_decode_loadKey :
    decodeRequest ([0b00000010, 7, 16] ++ k1.toList ++ [0x01, 0, 0]) = .command (.loadKey 7 k1.toList) [0x01, 0, 0] := by
  decide

theorem test_decode_reserved : decodeRequest [0x03, 0, 0] = .reserved 0x03 := by decide
theorem test_decode_reserved_unit_class : decodeRequest [0x8D, 0, 0] = .reserved 0x8D := by decide
theorem test_decode_unit_name : decodeRequest [0x82, 0, 4] = .unitName 0x82 := by decide
theorem test_decode_incomplete : decodeRequest [0x00, 0, 8, 1, 2] = .incomplete := by decide

/-- The command word is looked at before any other field (R158). -/
theorem test_decode_reserved_first : decodeRequest [0x7F] = .reserved 0x7F := by decide

theorem test_table_encrypt : decodeTableWord 8 0b00000000 = some (.encrypt 0 []) := by decide
theorem test_table_decrypt : decodeTableWord 8 0b00000001 = some (.decrypt 0 []) := by decide
theorem test_table_loadKey : decodeTableWord 8 0b00000010 = some (.loadKey 0 []) := by decide
theorem test_table_add : decodeTableWord 8 0b10000000 = some (.add 0 0) := by decide
theorem test_table_addInv : decodeTableWord 8 0b10000001 = some (.addInv 0) := by decide
theorem test_table_mul : decodeTableWord 8 0b10000010 = some (.mul 0 0) := by decide
theorem test_table_mulInv : decodeTableWord 8 0b10000011 = some (.mulInv 0) := by decide
theorem test_table_xor : decodeTableWord 8 0b10000100 = some (.xor 0 0) := by decide
theorem test_table_copy : decodeTableWord 8 0b10000101 = some (.copy 0) := by decide
theorem test_table_pack16 : decodeTableWord 8 0b10000110 = some (.pack16 0 0) := by decide
theorem test_table_unpack16 : decodeTableWord 8 0b10000111 = some (.unpack16 0) := by decide
theorem test_table_kexp : (decodeTableWord 8 0b10001000).map Instr.op = some .kexp := by decide
theorem test_table_kinv : (decodeTableWord 8 0b10001001).map Instr.op = some .kinv := by decide
theorem test_table_round : (decodeTableWord 8 0b10001010).map Instr.op = some .round := by decide
theorem test_table_outt : (decodeTableWord 8 0b10001011).map Instr.op = some .outt := by decide
theorem test_table_crypt : (decodeTableWord 8 0b10001100).map Instr.op = some .crypt := by decide
theorem test_table_reserved : decodeTableWord 8 0x90 = none := by decide

/-- A longer word: `cw`, `off` = 3, `n` = 2 and two bytes. -/
theorem test_table_longer : decodeTableWord 40 0x0201020300 = some (.encrypt 3 [1, 2]) := by decide

theorem test_encode_encrypt : encode (.encrypt 3 [0xAA, 0xBB]) = [0x00, 3, 2, 0xAA, 0xBB] := by decide
theorem test_encode_mul : encode (.mul 3 4) = [0x82] := by decide
theorem test_pseudoCrypt : pseudoCrypt true 0 [] = .decrypt 0 [] ∧ pseudoCrypt false 0 [] = .encrypt 0 [] := by decide

/-- R60: the headers of R137's and R135's example requests, `cw` on top. -/
theorem test_requestHeader : requestHeader 0x00 0x00 0x08 = 0x000008 ∧ requestHeader 0x02 0x07 0x10 = 0x020710 := by decide

/-- The parallel form of P4 step 7. -/
theorem test_decodeParallel : decodeParallel 0x020710 k1.toList = .command (.loadKey 7 k1.toList) [] := by decide

/-! ### Constants (R5) -/

theorem test_constants :
    Config.numSubkeys = Config.rounds * 6 + 4 ∧ Config.modAdd = 2 ^ Config.wordBits ∧
    Config.modMul = Config.modAdd + 1 ∧ Config.maxPayload = 255 := by decide

/-! ### Modular arithmetic: section 2.1 and rules R84, R85 -/

theorem test_add_wraps : outOf (exec (.add 0xFFFE 0x0002) .reset) = some (.word 0) := by decide
theorem test_add_plain : outOf (exec (.add 0x1234 0x5678) .reset) = some (.word 0x68AC) := by decide
theorem test_addInv_zero : outOf (exec (.addInv 0) .reset) = some (.word 0) := by decide
theorem test_addInv_plain : outOf (exec (.addInv 0x1234) .reset) = some (.word 0xEDCC) := by decide

/-- Rule R84, and the rows of section 2.1 it lacks. -/
theorem test_mul_table :
    ([(0x0000, 0x0000, 0x0001), (0x0000, 0x0001, 0x0000), (0x0001, 0x0000, 0x0000), (0x0000, 0x0002, 0xFFFF),
      (0x0000, 0xFFFF, 0x0002), (0x0000, 0x8000, 0x8001), (0x0001, 0xFFFF, 0xFFFF), (0x0002, 0x8000, 0x0000),
      (0x0002, 0x8001, 0x0001), (0x0100, 0x0100, 0x0000), (0xFFFF, 0xFFFF, 0x0004), (0xFFFF, 0x8000, 0x0001),
      (0x8000, 0x8000, 0xC001), (0x7FFF, 0x0002, 0xFFFE), (0xFFFF, 0x7FFF, 0x0003), (0x0003, 0x5556, 0x0001),
      (0x1234, 0x9E9A, 0x0001), (0xFFFF, 0x0002, 0xFFFD), (0x1234, 0x5678, 0xFA3B)]
      : List (Word × Word × Word)).all (fun r => mul r.1 r.2.1 == r.2.2) = true := by decide
theorem test_mul_unit : outOf (exec (.mul 0x8000 0x8000) .reset) = some (.word 0xC001) := by decide

theorem test_mulInv_unit : outOf (exec (.mulInv 0x1234) .reset) = some (.word 0x9E9A) := by decide

/-- The reference loop (R86) at words of R85's table. -/
theorem test_mulInvEuclid :
    ([(0x0080, 0xFE01), (0x7FFF, 0x5555), (0xFFFF, 0x8000), (0x0001, 0x0001), (0x0000, 0x0000)]
      : List (Word × Word)).all (fun r => mulInvEuclid 9 r.1 == r.2) = true := by decide
theorem test_xor_unit : outOf (exec (.xor 0x1234 0x5678) .reset) = some (.word 0x444C) := by decide
theorem test_copy_unit : outOf (exec (.copy 0xC000) .reset) = some (.word 0xC000) := by decide

/-! ### Bytes, key expansion and the inverter: sections 2.1 to 2.3 -/

theorem test_pack16 : outOf (exec (.pack16 0x80 0x00) .reset) = some (.word 0x8000) := by decide
theorem test_unpack16 : outOf (exec (.unpack16 0x11FB) .reset) = some (.bytes 0x11 0xFB) := by decide

/-- K6 of section 2.2, whole. -/
theorem test_kexp_k6 : (kexp k6).toList =
    [0x1011, 0x1213, 0x1415, 0x1617, 0x1819, 0x1A1B, 0x1C1D, 0x1E1F, 0x2628, 0x2A2C, 0x2E30, 0x3234,
     0x3638, 0x3A3C, 0x3E20, 0x2224, 0x585C, 0x6064, 0x686C, 0x7074, 0x787C, 0x4044, 0x484C, 0x5054]
    ++ [0xC8D0, 0xD8E0, 0xE8F0, 0xF880, 0x8890, 0x98A0, 0xA8B0, 0xB8C0, 0xC1D1, 0xE1F1, 0x0111, 0x2131,
     0x4151, 0x6171, 0x8191, 0xA1B1, 0xE202, 0x2242, 0x6282, 0xA2C2, 0xE303, 0x2343, 0x6383, 0xA3C3]
    ++ [0x84C5, 0x0545, 0x85C6, 0x0646] := by decide +kernel

/-- K4 of section 2.2: one bit, moved 25 places a group. -/
theorem test_kexp_one_bit :
    (kexp #v[0x80, 0, 0, 0, 0, 0, 0, 0, 0, 0, 0, 0, 0, 0, 0, 0])[14] = 0x0100 ∧
    (kexp #v[0x80, 0, 0, 0, 0, 0, 0, 0, 0, 0, 0, 0, 0, 0, 0, 0])[15] = 0 := by decide +kernel

/-- K6 of section 2.3, whole. -/
theorem test_kinv_k6 : (kinv (kexp k6)).toList =
    [0xCE30, 0xFABB, 0x7A3A, 0xC10A, 0x6383, 0xA3C3, 0x225D, 0x1CFD, 0x5D3E, 0x2EFE, 0xE202, 0x2242,
     0x4652, 0x7E6F, 0x9E8F, 0x37A8, 0x0111, 0x2131, 0xAE6D, 0x3E2F, 0x4740, 0xFAB7, 0x8890, 0x98A0]
    ++ [0x7A8A, 0x1710, 0x2720, 0xAFA5, 0x484C, 0x5054, 0x8884, 0x8784, 0x8F8C, 0xE955, 0x585C, 0x6064,
     0x4E55, 0xC1E0, 0xC5C4, 0xBB15, 0x2E30, 0x3234, 0xD821, 0xD9D8, 0xE1E1, 0xB9B2, 0x1819, 0x1A1B]
    ++ [0xA551, 0xEDED, 0xEBEB, 0x7A8C] := by decide +kernel

/-- R115, its first two rounds and its last group. -/
theorem test_kinv_k1 : (kinv (kexp k1)).toList.take 12 =
      [0xFE01, 0xFF40, 0xFF00, 0x659A, 0xC000, 0xE001, 0xFFFD, 0x8000, 0xA000, 0xCCCC, 0x0000, 0x2000] ∧
    (kinv (kexp k1)).toList.drop 48 = [0x0001, 0xFFFE, 0xFFFD, 0xC001] := by decide +kernel

/-- The rotation form (R104) on K6, the word at the edge of the last group. -/
theorem test_rotationWord : rotationWord k6 51 = 0x0646 ∧ rotationWord k6 7 = 0x1E1F := by decide +kernel

/-! ### The round and the block: sections 2.4, 2.5 and rule R129 -/

theorem test_round_plain :
    outOf (exec (.round ⟨0x1234, 0x5678, 0x9ABC, 0xDEF0⟩ ⟨0x0F1E, 0x2D3C, 0x4B5A, 0x6978, 0x8796, 0xA5B4⟩) .reset) =
      some (.quad ⟨0xE80D, 0x231E, 0xD829, 0xCF35⟩) := by decide
theorem test_round_zero :
    outOf (exec (.round ⟨0, 0, 0, 0⟩ ⟨0, 0, 0, 0, 0, 0⟩) .reset) = some (.quad ⟨1, 0, 0, 1⟩) := by decide
theorem test_outt_exchange :
    outOf (exec (.outt ⟨1, 2, 3, 4⟩ ⟨0x0001, 0x0010, 0x0100, 0x0001⟩) .reset) =
      some (.quad ⟨0x0001, 0x0013, 0x0102, 0x0004⟩) := by decide

/-- R129: the state after the eighth round. -/
theorem test_eightRounds : eightRounds (kexp k1) (blockWords plain) = ⟨0x0A24, 0x0098, 0xEC6B, 0x4925⟩ := by
  decide +kernel

/-- Row S of section 2.5. -/
theorem test_crypt_row_s :
    outOf (exec (.crypt #v[0x01, 0x23, 0x45, 0x67, 0x89, 0xAB, 0xCD, 0xEF] (kexp k6)) .reset) =
      some (.block #v[0x18, 0xF2, 0x55, 0x99, 0x77, 0x41, 0x61, 0xB8]) := by decide +kernel

/-- Row S, the decryption column. -/
theorem test_crypt_row_s_dk :
    crypt #v[0x01, 0x23, 0x45, 0x67, 0x89, 0xAB, 0xCD, 0xEF] (kinv (kexp k6)) =
      #v[0xF4, 0x42, 0x0B, 0x66, 0x00, 0x96, 0x7E, 0x7E] := by decide +kernel

/-! ### Host commands: programs P1, P3, P4, P5, P6 of section 3, one step each -/

/-- P1 steps 2 and 3, the source's vector. -/
theorem test_encrypt : answers (step (keyed k1 [.bytes ([0x00, 0, 8] ++ plain.toList)])) =
    some [[0x00, 0x11, 0xFB, 0xED, 0x2B, 0x01, 0x98, 0x6D, 0xE5]] := by decide +kernel
theorem test_decrypt : answers (step (keyed k1 [.bytes ([0x01, 0, 8] ++ cipher.toList)])) =
    some [[0x00, 0x00, 0x00, 0x00, 0x01, 0x00, 0x02, 0x00, 0x03]] := by decide +kernel

/-- P4 step 2: a block at an odd offset of a larger buffer. -/
theorem test_encrypt_offset :
    answers (step (keyed k1 [.bytes ([0x00, 3, 12, 0xAA, 0xBB, 0xCC] ++ plain.toList ++ [0xDD])])) =
      some [[0x00, 0x11, 0xFB, 0xED, 0x2B, 0x01, 0x98, 0x6D, 0xE5]] := by decide +kernel

/-- P3 steps 1, 8, 11: the errors of a block command. -/
theorem test_encrypt_no_key : answers (step (at_port [.bytes ([0x00, 0, 8] ++ plain.toList)])) = some [[0x03]] := by
  decide
theorem test_decrypt_short_without_key :
    answers (step (at_port [.bytes [0x01, 0, 7, 0, 0, 0, 1, 0, 2, 0]])) = some [[0x03]] := by decide
theorem test_decrypt_no_wrap :
    answers (step (keyed k1 [.bytes ([0x01, 0xFF, 8] ++ cipher.toList)])) = some [[0x02]] := by decide +kernel

/-- P3 steps 3, 5 and 7: LOADKEY. -/
theorem test_loadKey_15 :
    answers (step (at_port [.bytes ([0x02, 0, 15] ++ k1.toList.take 15)])) = some [[0x01]] := by decide
theorem test_loadKey_ok : answers (step (at_port [.bytes ([0x02, 7, 16] ++ k1.toList)])) = some [[0x00]] ∧
    kvOf (step (at_port [.bytes ([0x02, 7, 16] ++ k1.toList)])) = some true := by decide +kernel

/-- P5 steps 7 and 8, and a part of a request. -/
theorem test_reserved_refused :
    step (at_port [.bytes [0x03, 0, 0]]) = .refused (.reservedCommandWord 0x03) := by rfl
theorem test_unit_name_refused :
    step (at_port [.bytes [0x82, 0, 4, 1, 2, 3, 4]]) = .refused (.unitNameInRequest 0x82) := by rfl
theorem test_part_of_request_stuck : step (at_port [.bytes [0x02, 0, 16, 1]]) = .fault .incompleteRequest := by rfl

/-- P6 step 3, with a request in flight (R172). -/
theorem test_reset_clears_kv :
    step (keyed k1 [.reset [0x00, 0, 0]]) = .next State.reset := by rfl

theorem test_idle : step State.reset = .next State.reset := by rfl

/-- A table word runs as the first instruction after reset. -/
theorem test_fetchWord_loadKey : answers (step (State.reset.withFetchWord 8 0x02)) = some [[0x01]] := by decide
theorem test_fetchWord_encrypt : answers (step (State.reset.withFetchWord 8 0x00)) = some [[0x03]] := by decide

/-! ### The invariant holds where the machine starts and of a loaded core -/

theorem keyed_inv (key : Key) (evs : List PortEvent) : ScheduleInv (keyed key evs) := by
  intro ek dk h
  obtain ⟨h1, h2⟩ : kexp key = ek ∧ kinv (kexp key) = dk := by simpa only [keyed, Engine.keyed.injEq] using h
  exact ⟨key, h1.symm, by rw [← h1, h2]⟩

/-! ### Witnesses: a state and operands that meet each statement's hypotheses -/

theorem witness_MulReducesTheTrueProductModulo65537 :
    ((3 : Word).toNat * (4 : Word).toNat ≠ 0) ∧ ((0 : Word).toNat * (4 : Word).toNat = 0) ∧ (0xFFFF : Word) ≠ 0 ∧
    ((2 : Word) ≠ 0 ∧ (0x8000 : Word) ≠ 0 ∧ (2 : Word).toNat * (0x8000 : Word).toNat % 65537 = 65536) := by decide

theorem witness_MulIsTheGroupOperation : lift 0 = lift 0 ∧ (1 ≤ 65536 ∧ 65536 ≤ 65536) ∧ lift 0 = 65536 := by decide

theorem witness_EuclidLoopWithFuelNineNeverRunsOut : 9 ≤ 9 ∧ 1 < (2 : Word).toNat := by decide

theorem witness_PackAndUnpackAreBigEndian :
    0 + 2 ≤ plain.toList.length ∧ 6 + 2 ≤ plain.toList.length := by decide

theorem witness_MemWriteWritesTwoBytesAndNoOther : 0 ∈ [0, 2, 4, 6] ∧ 6 ∈ [0, 2, 4, 6] := by decide

theorem witness_OperandsAreTheWordsOfMemRead :
    k1.toList.length = 16 ∧ (blockAvailable plain.toList 0 ∧ 0 < 4) ∧
    (blockAvailable (List.replicate 255 0) 247 ∧ 3 < 4) := by decide +kernel

theorem witness_KexpFollowsTheRecurrence : (8 < 52 ∧ 8 ≤ 8) ∧ (51 < 52 ∧ 8 ≤ 51) := by decide

theorem witness_KexpSourceTableIsRight :
    (⟨8, 1, 2, 25⟩ : SourceRow) ∈ sourceTable ∧ (⟨51, 44, 45, 70⟩ : SourceRow) ∈ sourceTable := by decide

theorem witness_KexpIsTheRotationForm : (0 < 52 ∧ 0 < 16) ∧ (51 < 52 ∧ 15 < 16) := by decide

theorem witness_KinvFollowsThePseudocode : (1 ≤ 1 ∧ 1 ≤ 7) ∧ (1 ≤ 7 ∧ 7 ≤ 7) := by decide

theorem witness_KinvIsTheMappingTable :
    (⟨0, 48, .mulInv⟩ : MapEntry) ∈ mapTable ∧ (⟨51, 3, .mulInv⟩ : MapEntry) ∈ mapTable := by decide

/-- The words of row 1 of section 2.4 meet the equations of `RoundFollowsThePseudocode`. -/
theorem witness_RoundFollowsThePseudocode :
    (0x0000 : Word) = mul 0x0000 0x0001 ∧ (0x0003 : Word) = add 0x0001 0x0002 ∧ (0x0005 : Word) = add 0x0002 0x0003 ∧
    (0x000C : Word) = mul 0x0003 0x0004 ∧ (0x0005 : Word) = 0x0000 ^^^ 0x0005 ∧ (0x000F : Word) = 0x0003 ^^^ 0x000C ∧
    (0x0019 : Word) = mul 0x0005 0x0005 ∧ (0x0028 : Word) = add 0x000F 0x0019 ∧ (0x00F0 : Word) = mul 0x0028 0x0006 ∧
    (0x0109 : Word) = add 0x0019 0x00F0 := by decide

/-- The rounds as a sequence meet the hypotheses of `CryptRunsEightRoundsAndTheOutputTransformation`, for every block and
schedule. -/
theorem witness_CryptRunsEightRoundsAndTheOutputTransformation (blk : Block) (s : Schedule) :
    ∃ x : Nat → Quad,
      x 0 = ⟨pack16 blk[0] blk[1], pack16 blk[2] blk[3], pack16 blk[4] blk[5], pack16 blk[6] blk[7]⟩ ∧
      ∀ (i : Nat) (_ : i < 8), x (i + 1) =
        roundFn (x i) ⟨s[6 * i], s[6 * i + 1], s[6 * i + 2], s[6 * i + 3], s[6 * i + 4], s[6 * i + 5]⟩ :=
  ⟨fun n => Nat.rec ⟨pack16 blk[0] blk[1], pack16 blk[2] blk[3], pack16 blk[4] blk[5], pack16 blk[6] blk[7]⟩
    (fun i x => if h : i < 8 then
      roundFn x ⟨s[6 * i], s[6 * i + 1], s[6 * i + 2], s[6 * i + 3], s[6 * i + 4], s[6 * i + 5]⟩ else x) n,
    rfl, fun _ hi => dif_pos hi⟩

theorem witness_LoadKeyInstallsBothSchedules :
    (k1.toList.take 15).length ≠ 16 ∧ (k1.toList ++ [9]).length ≠ 16 ∧ ([] : List Byte).length ≠ 16 := by decide

theorem witness_EncryptTransformsWithEK :
    State.reset.kv = false ∧
    ((keyed k1 []).kv = true ∧ plain.toList.length < (1 : Byte).toNat + 8) ∧
    ((keyed k1 []).kv = true ∧ (List.replicate 255 (0 : Byte)).length < (248 : Byte).toNat + 8) ∧
    ((keyed k1 []).ek = some (kexp k1) ∧ HoldsBlock plain.toList (0 : Byte).toNat plain) :=
  ⟨rfl, ⟨rfl, by decide⟩, ⟨rfl, by decide +kernel⟩, rfl, by unfold HoldsBlock; decide⟩

theorem witness_DecryptTransformsWithDK :
    State.reset.kv = false ∧
    ((keyed k1 []).kv = true ∧ cipher.toList.length < (1 : Byte).toNat + 8) ∧
    ((keyed k1 []).kv = true ∧ ([] : List Byte).length < (255 : Byte).toNat + 8) ∧
    ((keyed k1 []).dk = some (kinv (kexp k1)) ∧ HoldsBlock ([0xAA] ++ cipher.toList) (1 : Byte).toNat cipher) :=
  ⟨rfl, ⟨rfl, by decide⟩, ⟨rfl, by decide⟩, rfl, by unfold HoldsBlock; decide⟩

theorem witness_BlockStatusIsDecidedByKeyThenLength :
    Instr.encrypt 0 [] ∈ [Instr.encrypt 0 [], Instr.decrypt 0 []] ∧
    Instr.decrypt 0 [] ∈ [Instr.encrypt 0 [], Instr.decrypt 0 []] := by decide

theorem witness_ErrorsWriteNoState : ∃ (t : State) (r : Response), HostCommand (.encrypt 0 []) ∧
    exec (.encrypt 0 []) State.reset = .next t ∧ t.responses = State.reset.responses ++ [r] ∧ r.status ≠ .ok :=
  ⟨_, ⟨.keyNotLoaded, none⟩, trivial, rfl, rfl, by decide⟩

theorem witness_IgnoredInputsChangeNothing :
    (0 : Byte).toNat + 8 ≤ plain.toList.length ∧ (3 : Byte).toNat + 8 ≤ ([0xAA, 0xBB, 0xCC] ++ plain.toList ++ [0xDD]).length ∧
    ∀ j < 8, plain.toList[(0 : Byte).toNat + j]? = ([0xAA, 0xBB, 0xCC] ++ plain.toList ++ [0xDD])[(3 : Byte).toNat + j]? := by
  decide

theorem witness_CommandsRoundTrip : ScheduleInv (keyed k1 []) ∧ (keyed k1 []).kv = true := ⟨keyed_inv k1 [], rfl⟩

theorem witness_NewKeyAppliesToEverythingAfterIt : HoldsBlock plain.toList (0 : Byte).toNat plain := by
  unfold HoldsBlock; decide

theorem witness_EveryInstructionCompletes : HostCommand (.loadKey 0 []) ∧ ¬ HostCommand (.add 0 0) := ⟨trivial, id⟩

theorem witness_OpcodeMapIsComplete :
    (0x03 ≤ (0x03 : Byte).toNat ∧ (0x03 : Byte).toNat ≤ 0x7F) ∧ (0x03 ≤ (0x7F : Byte).toNat ∧ (0x7F : Byte).toNat ≤ 0x7F) ∧
    0x8D ≤ (0x8D : Byte).toNat ∧ 0x8D ≤ (0xFF : Byte).toNat := by decide

theorem witness_CommandWordFields : cwClass 0x10 ≠ 0 ∧ cwClass 0x10 ≠ 8 ∧ cwClass 0xFF ≠ 0 ∧ cwClass 0xFF ≠ 8 := by
  decide

theorem witness_DecodeOfEncodeIsTheCommand :
    HostCommand (.encrypt 0xFF (List.replicate 255 0)) ∧ (Instr.encrypt 0xFF (List.replicate 255 0)).wellFormed = true :=
  ⟨trivial, by decide +kernel⟩

theorem witness_RequestIsTheHeaderAndThePayload :
    ([] : List Byte).length ≤ 255 ∧ (List.replicate 255 (0 : Byte)).length ≤ 255 := by decide +kernel

theorem witness_EncodeOfDecodeIsTheRequest : decodeRequest [0x02, 0, 0, 0x05] = .command (.loadKey 0 []) [0x05] := by
  decide

theorem witness_UnitCodesNameTheirRows : ¬ HostCommand (.mul 3 4) := id

theorem witness_ResponseFormat : ∃ (t : State) (r : Response), HostCommand (.loadKey 0 []) ∧
    exec (.loadKey 0 []) State.reset = .next t ∧ t.responses = State.reset.responses ++ [r] :=
  ⟨_, ⟨.invalidKeyLength, none⟩, trivial, rfl, rfl⟩

theorem witness_StepRunsTheDecodedRequest :
    (at_port [.bytes [0x02, 0, 0, 0x05]]).port = .bytes [0x02, 0, 0, 0x05] :: [] ∧
    decodeRequest [0x02, 0, 0, 0x05] = .command (.loadKey 0 []) [0x05] := ⟨rfl, by decide⟩

theorem witness_StepRefusesEveryOtherCommandWord :
    (at_port [.bytes [0x03]]).port = .bytes (0x03 :: []) :: [] ∧
    ∀ cw ∈ ([0x03, 0x7F, 0x80, 0x8C, 0x8D, 0xFF] : List Byte), cw ≠ 0x00 ∧ cw ≠ 0x01 ∧ cw ≠ 0x02 :=
  ⟨rfl, by decide⟩

theorem witness_PartOfARequestIsStuck :
    HostCommand (.encrypt 0 [1]) ∧ (Instr.encrypt 0 [1]).wellFormed = true ∧ 0 < 3 ∧ 3 < (encode (.encrypt 0 [1])).length ∧
    (at_port [.bytes ((encode (.encrypt 0 [1])).take 3)]).port = .bytes ((encode (.encrypt 0 [1])).take 3) :: [] :=
  ⟨trivial, by decide, by decide, by decide, rfl⟩

theorem witness_ResetLeavesNoKeyAndAReadyCore :
    HostCommand (.loadKey 0 k1.toList) ∧ (Instr.loadKey 0 k1.toList).wellFormed = true := ⟨trivial, by decide⟩

theorem witness_ResetIsTheOnlyWayToClearKV :
    (keyed k1 [.reset [0x00]]).port = .reset [0x00] :: [] ∧
    ∃ t, step (keyed k1 [.reset [0x00]]) = .next t ∧ (keyed k1 [.reset [0x00]]).kv = true ∧ t.kv = false :=
  ⟨rfl, _, rfl, rfl, rfl⟩

theorem witness_SchedulesChangeOnlyByLoadKeyOrReset :
    ∃ t, step (keyed k1 [.reset []]) = .next t ∧ t.engine ≠ (keyed k1 [.reset []]).engine :=
  ⟨_, rfl, by intro h; contradiction⟩

theorem witness_EveryStepKeepsTheScheduleInvariant :
    ∃ t, ScheduleInv (keyed k1 [.reset []]) ∧ step (keyed k1 [.reset []]) = .next t :=
  ⟨_, keyed_inv k1 _, rfl⟩

theorem witness_OneResponsePerAcceptedRequest :
    (∃ t, step (at_port [.bytes [0x02, 0, 0]]) = .next t) ∧
    (at_port [.bytes [0x02, 0, 0]]).port = .bytes [0x02, 0, 0] :: [] ∧
    decodeRequest [0x02, 0, 0] = .command (.loadKey 0 []) [] ∧
    (∃ t, step (at_port [.reset []]) = .next t) ∧ (at_port [.reset []]).port = .reset [] :: [] :=
  ⟨⟨_, rfl⟩, rfl, by decide, ⟨_, rfl⟩, rfl⟩

theorem witness_WithoutAKeyBlockCommandsAnswerKeyNotLoaded :
    State.kv (at_port [.bytes (encode (.encrypt 0 []) ++ [])]) = false ∧ ([] : List Byte).length ≤ 255 ∧
    Instr.encrypt 0 [] ∈ [Instr.encrypt 0 [], Instr.decrypt 0 []] ∧
    (at_port [.bytes (encode (.encrypt 0 []) ++ [])]).port = .bytes (encode (.encrypt 0 []) ++ []) :: [] :=
  ⟨rfl, by decide, by decide, rfl⟩

theorem witness_UnitOutputsAreUnobservable :
    (∃ t, step State.reset = .next t) ∧ (∃ r, step (at_port [.bytes [0x00]]) = .fault r) ∧
    ∃ r, step (at_port [.bytes [0x03]]) = .refused r := ⟨⟨_, rfl⟩, ⟨_, rfl⟩, ⟨_, rfl⟩⟩

theorem witness_IdleCoreStaysAsItIs : State.reset.port = [] := rfl

theorem witness_EveryProgramOfRequestsRunsToItsEnd :
    (∀ i ∈ [Instr.loadKey 0 k1.toList, .encrypt 0 plain.toList], HostCommand i ∧ i.wellFormed = true) ∧
    (at_port [.bytes ([Instr.loadKey 0 k1.toList, .encrypt 0 plain.toList].flatMap encode)]).port =
      [.bytes ([Instr.loadKey 0 k1.toList, .encrypt 0 plain.toList].flatMap encode)] := by
  refine ⟨?_, rfl⟩
  intro i hi
  simp only [List.mem_cons, List.not_mem_nil, or_false] at hi
  rcases hi with rfl | rfl
  · exact ⟨trivial, by decide⟩
  · exact ⟨trivial, by decide⟩

end Sys2Proof.Tests
end

/-!
PROOFS, family 10_state: what a step can do to the engine, the invariant of the schedules, reset, and `unitOut`.
-/

namespace Sys2Proof.Machine

/-! ### Requests as they are written out, and the step that takes one (R60, R73) -/

/-- A host command is the command of its own row, written out in the form of a request (R60, R62). -/
theorem HostCommand.exists_request {i : Instr} (h : HostCommand i) :
    ∃ off b, hostCommand i.op off b = some i ∧ encode i = requestBytes i.op.code off b ∧
      i.wellFormed = payloadFits b := by
  cases i with
  | encrypt off b => exact ⟨off, b, rfl, rfl, rfl⟩
  | decrypt off b => exact ⟨off, b, rfl, rfl, rfl⟩
  | loadKey off b => exact ⟨off, b, rfl, rfl, rfl⟩
  | _ => exact h.elim

/-- The rows that host commands are read from have class 0 (R61). -/
theorem cwClass_code_of_hostCommand {o : Op} {off : Byte} {b : List Byte} {i : Instr}
    (h : hostCommand o off b = some i) : cwClass o.code = 0 := by
  cases o with
  | encrypt | decrypt | loadKey => decide
  | _ => exact nomatch h

theorem decodeRequest_requestBytes_append {o : Op} {off : Byte} {b : List Byte} {i : Instr} (rest : List Byte)
    (hb : payloadFits b = true) (hi : hostCommand o off b = some i) :
    decodeRequest (requestBytes o.code off b ++ rest) = .command i rest := by
  simp only [requestBytes, List.cons_append, decodeRequest, lookupOp_code, cwClass_code_of_hostCommand hi, if_true]
  exact decodeFields_request hb hi

theorem decodeRequest_encode_append {i : Instr} (rest : List Byte) (hi : HostCommand i) (hwf : i.wellFormed = true) :
    decodeRequest (encode i ++ rest) = .command i rest := by
  obtain ⟨off, b, hrow, henc, hfit⟩ := hi.exists_request
  rw [henc]
  exact decodeRequest_requestBytes_append rest (hfit ▸ hwf) hrow

/-- A run of bytes that reads as a command is nonempty, and the step runs the command (R51, R73). -/
theorem step_command {s : State} {bs rest : List Byte} {evs : List PortEvent} {i : Instr}
    (hp : s.port = .bytes bs :: evs) (hd : decodeRequest bs = .command i rest) :
    step s = exec i { s with port := requeue rest evs } := by
  cases bs with
  | nil => exact nomatch hd
  | cons cw fields => rw [step_bytes hp, hd]

/-! ### LOADKEY with a key, and a block command on a payload that holds its block -/

theorem exec_loadKey_toList (off : Byte) (key : Key) (s : State) :
    exec (.loadKey off key.toList) s =
      .next (respond .ok none (installSchedules (kexp key) (kinv (kexp key)) s)) := by
  have hlen : key.toList.length = 16 := by simp
  rw [exec_loadKey, execLoadKey_ok off hlen, keyOperand_toList]

theorem blockCommand_of_holdsBlock {s : State} {ek dk : Schedule} {off : Nat} {b : List Byte} {blk : Block}
    (hs : s.engine = .keyed ek dk) (hb : HoldsBlock b off blk) (dir : Bool) :
    blockCommand dir off b s = .next (respond .ok (some (crypt blk (selectSchedule dir ek dk))) s) := by
  rw [blockCommand_ok hs dir (blockAvailable_of_holdsBlock hb), blockOperand_eq _ hb]

/-! ### What can happen to the engine (R22, R24, R33) -/

/-- An instruction leaves the engine as it is, or it is a LOADKEY of sixteen bytes. -/
theorem exec_engine_cases {i : Instr} {s t : State} (h : exec i s = .next t) :
    t.engine = s.engine ∨
    ∃ off key, i = .loadKey off (Vector.toList key) ∧
      t = respond .ok none (installSchedules (kexp key) (kinv (kexp key)) s) := by
  rcases exec_cases i s with ⟨-, o, he⟩ | ⟨-, st, o, he, -⟩ | ⟨off, b, hb, rfl, he⟩
  · obtain rfl := Host.Outcome.next.inj (h.symm.trans he)
    exact .inl rfl
  · obtain rfl := Host.Outcome.next.inj (h.symm.trans he)
    exact .inl rfl
  · exact .inr ⟨off, keyOperand b hb, by rw [toList_keyOperand], Host.Outcome.next.inj (h.symm.trans he)⟩

/-- A step leaves the engine as it is, resets it, or takes a request of LOADKEY with a key. -/
theorem step_engine_cases {s t : State} (h : step s = .next t) :
    t.engine = s.engine ∨
    (∃ inFlight evs, s.port = .reset inFlight :: evs ∧ t.engine = .noKey) ∨
    (∃ bs rest evs off key, s.port = .bytes bs :: evs ∧
      decodeRequest bs = .command (.loadKey off (Vector.toList key)) rest ∧
      t = respond .ok none (installSchedules (kexp key) (kinv (kexp key)) { s with port := requeue rest evs })) := by
  rcases step_cases h with ⟨-, rfl⟩ | ⟨evs, -, rfl⟩ | ⟨inFlight, evs, hp, rfl⟩ | ⟨bs, rest, evs, i, hp, hd, he⟩
  · exact .inl rfl
  · exact .inl rfl
  · exact .inr (.inl ⟨inFlight, evs, hp, rfl⟩)
  · rcases exec_engine_cases he with hsame | ⟨off, key, rfl, ht⟩
    · exact .inl hsame
    · exact .inr (.inr ⟨bs, rest, evs, off, key, hp, hd, ht⟩)

/-! ### The invariant of the schedules (R23) looks at the engine alone -/

theorem ScheduleInv.of_engine_eq {s t : State} (hs : ScheduleInv s) (h : t.engine = s.engine) : ScheduleInv t :=
  fun ek dk ht => hs ek dk (h.symm.trans ht)

theorem scheduleInv_of_noKey {s : State} (h : s.engine = .noKey) : ScheduleInv s :=
  fun _ _ hs => nomatch h.symm.trans hs

theorem scheduleInv_of_keyed {s : State} {key : Key} (h : s.engine = .keyed (kexp key) (kinv (kexp key))) :
    ScheduleInv s := by
  intro ek dk hs
  obtain ⟨rfl, rfl⟩ := Engine.keyed.inj (h.symm.trans hs)
  exact ⟨key, rfl, rfl⟩

/-- Settles O52: a step keeps the engine, empties it, or fills it with the schedules of one key. -/
theorem everyStepKeepsTheScheduleInvariant : Obligations.EveryStepKeepsTheScheduleInvariant := by
  intro s t hs h
  rcases step_engine_cases h with hsame | ⟨_, _, _, hnoKey⟩ | ⟨_, _, _, _, key, _, _, rfl⟩
  · exact hs.of_engine_eq hsame
  · exact scheduleInv_of_noKey hnoKey
  · exact scheduleInv_of_keyed (key := key) rfl

/-- Settles O53. -/
theorem resetHasTheScheduleInvariant : Obligations.ResetHasTheScheduleInvariant :=
  scheduleInv_of_noKey (s := State.reset) rfl

/-- Settles O51: of the three things a step can do to the engine, the two that change it are the two of the statement. -/
theorem schedulesChangeOnlyByLoadKeyOrReset : Obligations.SchedulesChangeOnlyByLoadKeyOrReset := by
  intro s t h hne
  rcases step_engine_cases h with hsame | ⟨inFlight, evs, hp, hnoKey⟩ | ⟨bs, rest, evs, off, key, hp, hd, rfl⟩
  · exact absurd hsame hne
  · exact .inl ⟨inFlight, evs, hp, t.kv_eq_false_iff.mpr hnoKey⟩
  · exact .inr ⟨bs, rest, evs, off, key, hp, hd, rfl, rfl, rfl, rfl⟩

/-! ### `unitOut` is written and never read (R26, R31, log 3) -/

/-- Two outcomes of the same kind, with the same reason to stop, or with next states that differ in `unitOut` alone. -/
inductive EqUpToUnitOut : Host.Outcome State Fault Refusal → Host.Outcome State Fault Refusal → Prop where
  | next (t : State) (v : UnitOut) : EqUpToUnitOut (.next t) (.next { t with unitOut := v })
  | fault (r : Fault) : EqUpToUnitOut (.fault r) (.fault r)
  | refused (r : Refusal) : EqUpToUnitOut (.refused r) (.refused r)

theorem blockCommand_eqUpToUnitOut (dir : Bool) (off : Nat) (b : List Byte) (s : State) (u : UnitOut) :
    EqUpToUnitOut (blockCommand dir off b s) (blockCommand dir off b { s with unitOut := u }) := by
  rcases blockCommand_cases dir off b s with ⟨hs, h⟩ | ⟨ek, dk, hs, hb, h⟩ | ⟨ek, dk, hb, hs, h⟩
  · rw [h, blockCommand_noKey (s := { s with unitOut := u }) hs]
    exact .next _ u
  · rw [h, blockCommand_short (s := { s with unitOut := u }) hs dir hb]
    exact .next _ u
  · rw [h, blockCommand_ok (s := { s with unitOut := u }) hs dir hb]
    exact .next _ u

theorem execLoadKey_eqUpToUnitOut (off : Byte) (b : List Byte) (s : State) (u : UnitOut) :
    EqUpToUnitOut (execLoadKey off b s) (execLoadKey off b { s with unitOut := u }) := by
  by_cases hb : b.length = 16
  · rw [execLoadKey_ok off hb, execLoadKey_ok off hb]
    exact .next _ u
  · rw [execLoadKey_error off hb, execLoadKey_error off hb]
    exact .next _ u

/-- A host command carries `unitOut` along; a unit operation overwrites it. -/
theorem exec_eqUpToUnitOut (i : Instr) (s : State) (u : UnitOut) :
    EqUpToUnitOut (exec i s) (exec i { s with unitOut := u }) := by
  cases i with
  | encrypt off b => exact blockCommand_eqUpToUnitOut false off.toNat b s u
  | decrypt off b => exact blockCommand_eqUpToUnitOut true off.toNat b s u
  | loadKey off b => exact execLoadKey_eqUpToUnitOut off b s u
  | _ => exact .next _ _

/-- Whatever stands at the port, `unitOut` does not decide what the step does. -/
theorem step_eqUpToUnitOut (s : State) (u : UnitOut) : EqUpToUnitOut (step s) (step { s with unitOut := u }) := by
  obtain ⟨port, hp⟩ : ∃ port, s.port = port := ⟨_, rfl⟩
  cases port with
  | nil =>
    rw [step_empty hp, step_empty (s := { s with unitOut := u }) hp]
    exact .next s u
  | cons ev evs =>
    cases ev with
    | reset inFlight =>
      rw [step_reset hp, step_reset (s := { s with unitOut := u }) hp]
      exact .next _ .none
    | bytes bs =>
      cases bs with
      | nil =>
        rw [step_emptyRun hp, step_emptyRun (s := { s with unitOut := u }) hp]
        exact .next _ u
      | cons cw fields =>
        rw [step_bytes hp, step_bytes (s := { s with unitOut := u }) hp]
        cases decodeRequest (cw :: fields) with
        | command i rest => exact exec_eqUpToUnitOut i { s with port := requeue rest evs } u
        | unitName c => exact .refused _
        | reserved c => exact .refused _
        | incomplete => exact .fault _

/-- Settles O56: the three clauses read off the one relation between the two steps. -/
theorem unitOutputsAreUnobservable : Obligations.UnitOutputsAreUnobservable := by
  intro s u
  have hstep := step_eqUpToUnitOut s u
  generalize step { s with unitOut := u } = o at hstep ⊢
  refine ⟨fun t h => ?_, fun r h => ?_, fun r h => ?_⟩
  · rw [h] at hstep
    obtain ⟨_, v⟩ := hstep
    exact ⟨v, rfl⟩
  · rw [h] at hstep
    cases hstep
    rfl
  · rw [h] at hstep
    cases hstep
    rfl

/-! ### A new key, reset, and the idle core -/

/-- Settles O37: after LOADKEY the engine holds the schedules of the new key, and a block command reads no other. -/
theorem newKeyAppliesToEverythingAfterIt : Obligations.NewKeyAppliesToEverythingAfterIt := by
  intro off off' key b blk s hb
  have ht : (respond .ok none (installSchedules (kexp key) (kinv (kexp key)) s)).engine =
      .keyed (kexp key) (kinv (kexp key)) := rfl
  refine ⟨_, exec_loadKey_toList off key s, ?_, ?_⟩
  · exact blockCommand_of_holdsBlock ht hb false
  · exact blockCommand_of_holdsBlock ht hb true

/-- Settles O49: the bytes of a well-formed host command read back as it, with nothing left at the port. -/
theorem resetLeavesNoKeyAndAReadyCore : Obligations.ResetLeavesNoKeyAndAReadyCore := by
  refine ⟨rfl, rfl, rfl, fun i hi hwf => ?_⟩
  have hd : decodeRequest (encode i) = .command i [] := by
    simpa only [List.append_nil] using decodeRequest_encode_append [] hi hwf
  exact step_command (s := { State.reset with port := [.bytes (encode i)] }) rfl hd

/-- Settles O57. -/
theorem idleCoreStaysAsItIs : Obligations.IdleCoreStaysAsItIs := fun _ h => step_empty h

end Sys2Proof.Machine

/-!
PROOFS, family 20_memory: words and bytes, the operands of a request, the key as one number, and runs of requests.
-/

namespace Sys2Proof.Machine

/-! ### PACK16 and UNPACK16 as arithmetic (R100, R126) -/

theorem toNat_pack16 (hi lo : Byte) : (pack16 hi lo).toNat = hi.toNat * 256 + lo.toNat := by
  have hshift : (hi.setWidth 16 <<< 8).toNat = hi.toNat <<< 8 := by
    simp only [BitVec.toNat_shiftLeft, BitVec.toNat_setWidth, Nat.shiftLeft_eq]
    omega
  have hlo : (lo.setWidth 16).toNat = lo.toNat := by simp only [BitVec.toNat_setWidth]; omega
  rw [pack16, BitVec.toNat_or, hshift, hlo, ← Nat.shiftLeft_add_eq_or_of_lt lo.isLt, Nat.shiftLeft_eq]

theorem toNat_hiByte (v : Word) : (hiByte v).toNat = v.toNat / 256 := by
  simp only [hiByte, BitVec.extractLsb'_toNat, Nat.shiftRight_eq_div_pow]
  omega

theorem toNat_loByte (v : Word) : (loByte v).toNat = v.toNat % 256 := by
  simp only [loByte, BitVec.extractLsb'_toNat, Nat.shiftRight_zero]

@[simp] theorem pack16_hiByte_loByte (v : Word) : pack16 (hiByte v) (loByte v) = v := by
  apply BitVec.eq_of_toNat_eq
  rw [toNat_pack16, toNat_hiByte, toNat_loByte]
  omega

/-! ### MemRead and MemWrite (R41, R42) -/

theorem memRead_eq_pack16 (b : List Byte) (addr : Nat) (h : addr + 2 ≤ b.length) :
    memRead b addr = some (pack16 b[addr] b[addr + 1]) := by
  simp only [memRead, List.getElem?_eq_getElem (show addr < b.length by omega),
    List.getElem?_eq_getElem (show addr + 1 < b.length by omega)]

/-- What each result byte is after a write. -/
theorem getElem_memWrite (o : Block) (addr : Nat) (v : Word) (k : Nat) (hk : k < 8) :
    (memWrite o addr v)[k] = if k = addr then hiByte v else if k = addr + 1 then loByte v else o[k] := by
  rw [memWrite]
  rcases eq_or_ne k addr with rfl | hne
  · rw [if_pos rfl, Vector.getElem_setIfInBounds_ne hk (Nat.succ_ne_self k), Vector.getElem_setIfInBounds_self]
  · rw [if_neg hne, Vector.getElem_setIfInBounds, Vector.getElem_setIfInBounds_ne hk hne.symm]
    simp only [eq_comm]

/-- Settles O10: values by `toNat`, the reads and writes by the two lemmas of MemRead and MemWrite. -/
theorem packAndUnpackAreBigEndian : Obligations.PackAndUnpackAreBigEndian := by
  refine ⟨toNat_pack16, fun _ _ => rfl, fun v => ⟨toNat_hiByte v, toNat_loByte v⟩, pack16_hiByte_loByte,
    memRead_eq_pack16, fun o v j => ⟨?_, ?_⟩, by decide, by decide, by decide, rfl, rfl⟩
  · rw [getElem_memWrite, if_pos rfl]
  · rw [getElem_memWrite, if_neg (by omega), if_pos rfl]

/-- Settles O11: `getElem_memWrite`, which holds at every address. -/
theorem memWriteWritesTwoBytesAndNoOther : Obligations.MemWriteWritesTwoBytesAndNoOther :=
  fun o v addr _ k => getElem_memWrite o addr v k.val k.isLt

/-! ### The operands of a request, and the result bytes (R44, R67, R68) -/

@[simp] theorem getElem_keyOperand (b : List Byte) (h : b.length = 16) (i : Nat) (hi : i < 16) :
    (keyOperand b h)[i] = b[i] := by
  simp only [keyOperand, Vector.getElem_ofFn]

@[simp] theorem getElem_blockOperand (b : List Byte) (off : Nat) (h : blockAvailable b off) (i : Nat) (hi : i < 8) :
    (blockOperand b off h)[i] = b[off + i]'(Nat.lt_of_lt_of_le (by omega) h) := by
  simp only [blockOperand, Vector.getElem_ofFn]

/-- The first eight subkeys are the words of the key (R67, R102). -/
theorem kexp_getElem_keyWord (key : Key) (j : Nat) (hj : j < 8) :
    (kexp key)[j] = pack16 key[2 * j] key[2 * j + 1] := by
  rw [kexp_getElem_of_lt key 0 j (by omega) hj]
  simp only [expandSteps_zero, keyWords, Vector.getElem_ofFn]

/-- Word `j` of a block, from its bytes `2j` and `2j + 1` (R68). -/
theorem blockWords_getElem (blk : Block) (j : Nat) (hj : j < 4) :
    [(blockWords blk).x0, (blockWords blk).x1, (blockWords blk).x2, (blockWords blk).x3][j] =
      pack16 blk[2 * j] blk[2 * j + 1] := by
  match j with
  | 0 | 1 | 2 | 3 => rfl

/-- The four writes of a result's words leave nothing of the buffer they start from (R44). -/
theorem memWrite_four (o : Block) (r : Quad) :
    memWrite (memWrite (memWrite (memWrite o 0 r.x0) 2 r.x1) 4 r.x2) 6 r.x3 = wordsBlock r := by
  apply Vector.ext
  intro k hk
  simp only [getElem_memWrite]
  match k with
  | 0 | 1 | 2 | 3 | 4 | 5 | 6 | 7 => rfl

/-- Settles O12: key words and block words are both `pack16` of two neighbouring payload bytes, which MemRead gives. -/
theorem operandsAreTheWordsOfMemRead : Obligations.OperandsAreTheWordsOfMemRead := by
  refine ⟨fun b h j => ?_, fun b off h => ?_, fun o r => ⟨memWrite_four o r, rfl⟩⟩
  · have hword : (kexp (keyOperand b h))[j.val] = pack16 b[2 * j.val] b[2 * j.val + 1] := by
      rw [kexp_getElem_keyWord _ _ j.isLt, getElem_keyOperand, getElem_keyOperand]
    exact ⟨by rw [memRead_eq_pack16 b _ (by omega), hword], hword⟩
  · intro x j hj
    have hlen : off + 8 ≤ b.length := h
    have hword : [x.x0, x.x1, x.x2, x.x3][j] = pack16 b[off + 2 * j] b[off + 2 * j + 1] := by
      rw [blockWords_getElem _ j hj, getElem_blockOperand, getElem_blockOperand]
      rfl
    exact ⟨by rw [memRead_eq_pack16 b _ (by omega), hword], hword⟩

/-! ### The key as one number (R45) -/

/-- The bytes of a key as digits to base 256, the least significant first, as `Nat.ofDigits` takes them. -/
def keyDigits (key : Key) : List Nat := (key.toList.map BitVec.toNat).reverse

@[simp] theorem keyDigits_length (key : Key) : (keyDigits key).length = 16 := by simp [keyDigits]

theorem keyDigits_getElem (key : Key) (i : Nat) (hi : i < (keyDigits key).length) :
    (keyDigits key)[i] = (key[15 - i]).toNat := by
  simp [keyDigits]

theorem keyDigits_lt (key : Key) : ∀ d ∈ keyDigits key, d < 256 := by
  simp only [keyDigits, List.mem_reverse, List.mem_map]
  rintro _ ⟨b, -, rfl⟩
  exact b.isLt

/-- The key's number is the number its digits write; 128 bits hold it. -/
theorem toNat_keyNumber (key : Key) : (keyNumber key).toNat = Nat.ofDigits 256 (keyDigits key) := by
  have hfold : key.toList.foldl (fun k b => k * 256 + b.toNat) 0 = Nat.ofDigits 256 (keyDigits key) := by
    simp only [keyDigits, Nat.ofDigits_eq_foldr, List.foldr_reverse, List.foldl_map, Nat.cast_id, Nat.add_comm,
      Nat.mul_comm]
  have hlt := Nat.ofDigits_lt_base_pow_length (by decide) (keyDigits_lt key)
  rw [keyDigits_length, show 256 ^ 16 = 2 ^ 128 by decide] at hlt
  rw [keyNumber, hfold, BitVec.toNat_ofNat, Nat.mod_eq_of_lt hlt]

/-- A number written most significant digit first, as the sum of its digits' values. -/
theorem ofDigits_reverse_eq_sum (b : Nat) {n : Nat} (l : List Nat) (hl : l.length = n) :
    Nat.ofDigits b l.reverse = ∑ i : Fin n, l[i.val] * b ^ (n - 1 - i.val) := by
  subst hl
  induction l with
  | nil => rfl
  | cons d l ih =>
    rw [Nat.ofDigits_reverse_cons, ih]
    refine Eq.trans ?_ (Fin.sum_univ_succ (n := l.length) _).symm
    simp [Nat.sub_sub, Nat.add_comm, Nat.mul_comm]

/-- Two neighbouring digits cut out of a number to base 256. -/
theorem ofDigits_div_pow_mod (l : List Nat) (hl : ∀ d ∈ l, d < 256) (i : Nat) (hi : i + 1 < l.length) :
    Nat.ofDigits 256 l / 256 ^ i % 65536 = l[i + 1] * 256 + l[i] := by
  have hlow := hl l[i] (List.getElem_mem _)
  have hhigh := hl l[i + 1] (List.getElem_mem _)
  rw [Nat.ofDigits_div_pow_eq_ofDigits_drop i (by decide) l hl, List.drop_eq_getElem_cons (by omega),
    List.drop_eq_getElem_cons hi, Nat.ofDigits_cons, Nat.ofDigits_cons]
  omega

/-- Word `j` of the key's number, cut from the most significant end. -/
theorem keyNumber_extractLsb'_word (key : Key) (j : Nat) (hj : j < 8) :
    (keyNumber key).extractLsb' (112 - 16 * j) 16 = pack16 key[2 * j] key[2 * j + 1] := by
  have hpow : 2 ^ (112 - 16 * j) = 256 ^ (14 - 2 * j) := by
    rw [show 112 - 16 * j = 8 * (14 - 2 * j) by omega, Nat.pow_mul]
  apply BitVec.eq_of_toNat_eq
  rw [BitVec.extractLsb'_toNat, Nat.shiftRight_eq_div_pow, hpow, toNat_keyNumber, toNat_pack16,
    ofDigits_div_pow_mod _ (keyDigits_lt key) _ (by rw [keyDigits_length]; omega), keyDigits_getElem,
    keyDigits_getElem]
  congr <;> omega

/-- Settles O16: the number is written by its sixteen digits, and a word is two neighbouring ones. -/
theorem keyNumberIsBigEndian : Obligations.KeyNumberIsBigEndian := by
  intro key
  refine ⟨?_, fun j => ?_⟩
  · rw [toNat_keyNumber, keyDigits, ofDigits_reverse_eq_sum 256 (n := 16) _ (by simp)]
    refine Finset.sum_congr rfl fun i _ => ?_
    rw [show 120 - 8 * i.val = 8 * (16 - 1 - i.val) by omega, Nat.pow_mul, List.getElem_map, Vector.getElem_toList]
  · rw [kexp_getElem_keyWord key j.val j.isLt, keyNumber_extractLsb'_word key j.val j.isLt]

/-! ### Steps over requests (R51, R65, R73) -/

theorem requeue_eq_ite (rest : List Byte) (evs : List PortEvent) :
    requeue rest evs = if rest = [] then evs else .bytes rest :: evs := by
  cases rest <;> rfl

/-- Settles O46: `step_command`, with `requeue` written out. -/
theorem stepRunsTheDecodedRequest : Obligations.StepRunsTheDecodedRequest := by
  intro s bs rest evs i hp hd
  rw [step_command hp hd, requeue_eq_ite]

/-- A host command delivers one response after the earlier ones, and takes nothing from the port (R65). -/
theorem exec_hostCommand {i : Instr} (hi : HostCommand i) (s : State) :
    ∃ t r, exec i s = .next t ∧ t.port = s.port ∧ t.responses = s.responses ++ [r] := by
  rcases exec_cases i s with ⟨hunit, -⟩ | ⟨-, st, o, he, -⟩ | ⟨off, b, hb, -, he⟩
  · exact absurd hi hunit
  · exact ⟨_, ⟨st, o⟩, he, rfl, rfl⟩
  · exact ⟨_, ⟨.ok, none⟩, he, rfl, rfl⟩

theorem encode_ne_nil (i : Instr) : encode i ≠ [] := by
  cases i <;> exact List.cons_ne_nil _ _

/-- A step over a well-formed request, with anything after it, delivers one response and leaves what follows. -/
theorem step_encode_append {s : State} {i : Instr} {rest : List Byte} {evs : List PortEvent} (hi : HostCommand i)
    (hwf : i.wellFormed = true) (hp : s.port = .bytes (encode i ++ rest) :: evs) :
    ∃ t r, step s = .next t ∧ t.port = requeue rest evs ∧ t.responses = s.responses ++ [r] := by
  rw [step_command hp (decodeRequest_encode_append rest hi hwf)]
  exact exec_hostCommand hi _

theorem requeue_flatMap_encode_cons (i : Instr) (is : List Instr) (evs : List PortEvent) :
    requeue ((i :: is).flatMap encode) evs = .bytes (encode i ++ is.flatMap encode) :: evs := by
  rw [List.flatMap_cons, requeue_eq_ite, if_neg (List.append_ne_nil_of_left_ne_nil (encode_ne_nil i) _)]

/-- The run of a list of requests, with the port as the step before left it: no run of bytes when none is left. -/
theorem run_requests (is : List Instr) (his : ∀ i ∈ is, HostCommand i ∧ i.wellFormed = true) (s : State)
    (hp : s.port = requeue (is.flatMap encode) []) :
    ∃ t, run is.length s = .next t ∧ t.port = [] ∧ t.responses.length = s.responses.length + is.length ∧
      s.responses <+: t.responses := by
  induction is generalizing s with
  | nil => exact ⟨s, rfl, hp, rfl, List.prefix_rfl⟩
  | cons i is ih =>
    obtain ⟨⟨hi, hwf⟩, his⟩ := List.forall_mem_cons.mp his
    obtain ⟨u, r, hstep, hport, hresp⟩ :=
      step_encode_append hi hwf (hp.trans (requeue_flatMap_encode_cons i is []))
    obtain ⟨t, hrun, hempty, hlen, hprefix⟩ := ih his u hport
    rw [hresp] at hlen hprefix
    refine ⟨t, (run_succ_of_next hstep _).trans hrun, hempty, ?_, (List.prefix_append _ _).trans hprefix⟩
    rw [hlen, List.length_append, List.length_singleton, List.length_cons, Nat.add_assoc, Nat.add_comm 1]

/-- Settles O58: an empty list takes no step; any other is a run of requests, one step and one response each. -/
theorem everyProgramOfRequestsRunsToItsEnd : Obligations.EveryProgramOfRequestsRunsToItsEnd := by
  intro is s his hp
  cases is with
  | nil => exact ⟨s, rfl, fun h => absurd rfl h, rfl, List.prefix_rfl⟩
  | cons i is =>
    obtain ⟨t, hrun, hempty, hrest⟩ :=
      run_requests (i :: is) his s (hp.trans (requeue_flatMap_encode_cons i is []).symm)
    exact ⟨t, hrun, fun _ => hempty, hrest⟩

end Sys2Proof.Machine

/-!
PROOFS, family 30_encoding: requests and responses as bytes, the map of the command word, the inputs a command ignores, and
the completion of the unit operations.
-/

namespace Sys2Proof.Machine

/-! ### From the command to its bytes (R60, R73) -/

/-- Settles O41: a host command is written as the request of its row, and byte 2 of a request is the payload's length. -/
theorem decodeOfEncodeIsTheCommand : Obligations.DecodeOfEncodeIsTheCommand := by
  intro i rest hi hwf
  refine ⟨decodeRequest_encode_append rest hi hwf, ?_⟩
  obtain ⟨off, b, -, henc, hfit⟩ := hi.exists_request
  rw [henc]
  exact ⟨BitVec.ofNat 8 b.length, rfl, by rw [requestBytes_length, lengthField_toNat (hfit ▸ hwf)]⟩

theorem payloadFits_iff (b : List Byte) : payloadFits b = true ↔ b.length ≤ 255 := decide_eq_true_iff

/-- The parallel form of a request reads as its byte string does (R60). -/
theorem decodeParallel_requestHeader {o : Op} {off : Byte} {b : List Byte} {i : Instr} (hb : payloadFits b = true)
    (hi : hostCommand o off b = some i) :
    decodeParallel (requestHeader o.code off (BitVec.ofNat 8 b.length)) b = .command i [] := by
  rw [decodeParallel, ← requestBytes_eq_headerBytes, ← List.append_nil (requestBytes _ _ _)]
  exact decodeRequest_requestBytes_append [] hb hi

/-- Settles O59: the slices of a header are its fields, and both forms of a request are made of them. -/
theorem requestIsTheHeaderAndThePayload : Obligations.RequestIsTheHeaderAndThePayload := by
  refine ⟨fun cw off n => ?_, requestHeader_slices, fun _ _ => ⟨rfl, rfl, rfl⟩, fun cw off b hlen => ?_⟩
  · exact ⟨headerCw_requestHeader cw off n, headerOff_requestHeader cw off n, headerLength_requestHeader cw off n⟩
  · have hb : payloadFits b = true := (payloadFits_iff b).mpr hlen
    have hn := lengthField_toNat hb
    refine ⟨BitVec.ofNat 8 b.length, hn, rfl, by rw [requestBytes_length, hn], requestBytes_eq_headerBytes cw off b, ?_⟩
    exact ⟨decodeParallel_requestHeader (o := .encrypt) hb rfl, decodeParallel_requestHeader (o := .decrypt) hb rfl,
      decodeParallel_requestHeader (o := .loadKey) hb rfl⟩

/-! ### From the bytes to the command (R60, R73) -/

/-- The command a row gives is a host command, written as the request of that row. -/
theorem hostCommand_eq_some {o : Op} {off : Byte} {b : List Byte} {i : Instr} (h : hostCommand o off b = some i) :
    HostCommand i ∧ i.wellFormed = payloadFits b ∧ encode i = requestBytes o.code off b := by
  cases o with
  | encrypt | decrypt | loadKey =>
    obtain rfl := Option.some.inj h
    exact ⟨trivial, rfl, rfl⟩
  | _ => exact nomatch h

/-- Fields that read as a command are `off`, the length of a payload, the payload, and what follows. -/
theorem decodeFields_eq_command {o : Op} {cw : Byte} {fields rest : List Byte} {i : Instr}
    (h : decodeFields o cw fields = .command i rest) :
    ∃ off b, payloadFits b = true ∧ hostCommand o off b = some i ∧
      fields = off :: BitVec.ofNat 8 b.length :: (b ++ rest) := by
  match fields with
  | [] | [_] => exact nomatch h
  | off :: n :: body =>
    rw [decodeFields] at h
    split at h
    · exact nomatch h
    · rename_i hlen
      have hb : (body.take n.toNat).length = n.toNat := List.length_take_of_le (Nat.le_of_not_lt hlen)
      split at h
      · rename_i j hj
        obtain ⟨rfl, rfl⟩ := Decoded.command.inj h
        refine ⟨off, body.take n.toNat, ?_, hj, ?_⟩
        · rw [payloadFits_iff, hb]
          exact Nat.le_of_lt_succ n.isLt
        · rw [hb, BitVec.ofNat_toNat, BitVec.setWidth_eq, List.take_append_drop]
      · exact nomatch h

/-- Bytes that read as a command are the request of a row, and what follows. -/
theorem decodeRequest_eq_command {bs rest : List Byte} {i : Instr} (h : decodeRequest bs = .command i rest) :
    ∃ o off b, payloadFits b = true ∧ hostCommand o off b = some i ∧ bs = requestBytes o.code off b ++ rest := by
  cases bs with
  | nil => exact nomatch h
  | cons cw fields =>
    rw [decodeRequest] at h
    split at h
    · exact nomatch h
    · rename_i o ho
      split at h
      · obtain ⟨off, b, hb, hi, rfl⟩ := decodeFields_eq_command h
        exact ⟨o, off, b, hb, hi, by rw [code_of_lookupOp ho]; rfl⟩
      · exact nomatch h

/-- Settles O42: the bytes are the request of a row, and so is the encoding of the command the row gives. -/
theorem encodeOfDecodeIsTheRequest : Obligations.EncodeOfDecodeIsTheRequest := by
  intro bs i rest h
  obtain ⟨o, off, b, hb, hi, rfl⟩ := decodeRequest_eq_command h
  obtain ⟨hhost, hwf, henc⟩ := hostCommand_eq_some hi
  exact ⟨hhost, hwf.trans hb, by rw [henc]⟩

/-- Settles O54: the one step that takes a request runs a host command, which answers once; no other step answers. -/
theorem oneResponsePerAcceptedRequest : Obligations.OneResponsePerAcceptedRequest := by
  intro s t hstep
  refine ⟨fun bs rest evs i hp hd => ?_, ?_⟩
  · obtain ⟨_, _, _, -, hrow, -⟩ := decodeRequest_eq_command hd
    obtain ⟨hi, -, -⟩ := hostCommand_eq_some hrow
    obtain ⟨u, r, hexec, -, hresp⟩ := exec_hostCommand hi { s with port := requeue rest evs }
    rw [step_command hp hd, hexec] at hstep
    obtain rfl := Host.Outcome.next.inj hstep
    exact ⟨r, hresp⟩
  · rintro (hp | ⟨evs, hp⟩ | ⟨inFlight, evs, hp⟩)
    · rw [step_empty hp] at hstep
      rw [← Host.Outcome.next.inj hstep]
    · rw [step_emptyRun hp] at hstep
      rw [← Host.Outcome.next.inj hstep]
    · rw [step_reset hp] at hstep
      rw [← Host.Outcome.next.inj hstep, applyReset_responses]

/-! ### The map of the command word (R61, R70, R71) -/

/-- Every row is a host command, of class 0, or a unit operation, of class 8. -/
theorem code_cases (o : Op) :
    o.code.toNat ≤ 0x02 ∧ cwClass o.code = 0x0 ∨
    (0x80 ≤ o.code.toNat ∧ o.code.toNat ≤ 0x8C) ∧ cwClass o.code = 0x8 := by
  cases o <;> decide

/-- Every code of a unit operation has its row. -/
theorem exists_code_eq_of_unitRange {cw : Byte} (h : 0x80 ≤ cw.toNat ∧ cw.toNat ≤ 0x8C) : ∃ o : Op, o.code = cw := by
  obtain ⟨hlo, hhi⟩ := h
  have rows : ∀ k < 13, (lookupOp (BitVec.ofNat 8 (0x80 + k))).isSome = true := by decide
  have hrow := rows (cw.toNat - 0x80) (by omega)
  rw [Nat.add_sub_cancel' hlo, BitVec.ofNat_toNat, BitVec.setWidth_eq, Option.isSome_iff_exists] at hrow
  obtain ⟨o, ho⟩ := hrow
  exact ⟨o, code_of_lookupOp ho⟩

/-- A word that is no row's code is reserved. -/
theorem lookupOp_eq_none {cw : Byte} (h : ∀ o : Op, o.code ≠ cw) : lookupOp cw = none :=
  Option.eq_none_iff_forall_ne_some.mpr fun o ho => h o (code_of_lookupOp ho)

/-- Settles O39: a word outside the ranges of `code_cases` is no row's code; the rest is read off the table. -/
theorem opcodeMapIsComplete : Obligations.OpcodeMapIsComplete := by
  refine ⟨rfl, rfl, rfl, fun cw hcw => lookupOp_eq_none ?_, by decide, by decide, by decide⟩
  rintro o rfl
  rcases code_cases o with ⟨hhost, -⟩ | ⟨hunit, -⟩ <;> omega

theorem cwClass_append_cwFunction (cw : Byte) : cwClass cw ++ cwFunction cw = cw :=
  BitVec.extractLsb'_append_extractLsb'

/-- Settles O40: a word of another class is no row's code, as every row has class 0 or 8. -/
theorem commandWordFields : Obligations.CommandWordFields := by
  refine ⟨fun cw => (cwClass_append_cwFunction cw).symm, by decide, by decide, fun cw h0 h8 => lookupOp_eq_none ?_,
    rfl, rfl⟩
  rintro o rfl
  rcases code_cases o with ⟨-, hclass⟩ | ⟨-, hclass⟩
  · exact h0 hclass
  · exact h8 hclass

theorem decodeRequest_reserved {cw : Byte} (h : lookupOp cw = none) (fields : List Byte) :
    decodeRequest (cw :: fields) = .reserved cw := by
  simp only [decodeRequest, h]

/-- A row outside class 0 is not a request, whatever follows its code (R71, R158). -/
theorem decodeRequest_unitName {o : Op} (h : cwClass o.code ≠ 0) (fields : List Byte) :
    decodeRequest (o.code :: fields) = .unitName o.code := by
  simp only [decodeRequest, lookupOp_code, h, if_false]

/-- Settles O47: a code that is a row's and no host command's is of class 8; any other is reserved. -/
theorem stepRefusesEveryOtherCommandWord : Obligations.StepRefusesEveryOtherCommandWord := by
  intro s cw fields evs hp h0 h1 h2
  rw [step_bytes hp]
  by_cases hrow : ∃ o : Op, o.code = cw
  · obtain ⟨o, rfl⟩ := hrow
    rcases code_cases o with ⟨hhost, -⟩ | ⟨hunit, hclass⟩
    · bv_omega
    · rw [decodeRequest_unitName (by rw [hclass]; decide), if_pos hunit]
  · rw [decodeRequest_reserved (lookupOp_eq_none (not_exists.mp hrow)),
      if_neg fun hunit => hrow (exists_code_eq_of_unitRange hunit)]

/-- A unit operation is written as its code alone, which no host command has (R63). -/
theorem encode_of_not_hostCommand {i : Instr} (h : ¬ HostCommand i) :
    encode i = [i.op.code] ∧ 0x02 < i.op.code.toNat := by
  cases i with
  | encrypt | decrypt | loadKey => exact absurd trivial h
  | _ => exact ⟨rfl, Nat.le_of_ble_eq_true rfl⟩

/-- Settles O43: the code of a unit operation is its row's, and its class is not that of a request. -/
theorem unitCodesNameTheirRows : Obligations.UnitCodesNameTheirRows := by
  intro i hi
  obtain ⟨henc, hcode⟩ := encode_of_not_hostCommand hi
  refine ⟨henc, lookupOp_code i.op, fun fields => ?_⟩
  rcases code_cases i.op with ⟨hhost, -⟩ | ⟨-, hclass⟩
  · omega
  · rw [henc]
    exact decodeRequest_unitName (by rw [hclass]; decide) fields

/-- Settles O44: the decoder run on each of the six byte strings. -/
theorem requestsOfTheSpecDecode : Obligations.RequestsOfTheSpecDecode :=
  ⟨by decide, by decide, by decide, by decide, by decide, by decide⟩

/-! ### Responses (R64, R150) -/

/-- Byte 0 of a response: six zero bits above the status. -/
theorem statusCode_setWidth (st : Status) : (statusCode st).setWidth 8 = 0#6 ++ statusCode st := by
  cases st <;> rfl

/-- A block command delivers one response, with result bytes exactly when its status is OK. -/
theorem blockCommand_response (dir : Bool) (off : Nat) (b : List Byte) (s : State) :
    ∃ st o, blockCommand dir off b s = .next (respond st o s) ∧ (o ≠ none ↔ st = .ok) := by
  rcases blockCommand_cases dir off b s with ⟨-, h⟩ | ⟨_, _, -, -, h⟩ | ⟨_, _, _, -, h⟩ <;>
    exact ⟨_, _, h, by simp⟩

/-- LOADKEY delivers one response, without result bytes. -/
theorem execLoadKey_response (off : Byte) (b : List Byte) (s : State) :
    ∃ t st, execLoadKey off b s = .next t ∧ t.responses = s.responses ++ [⟨st, none⟩] := by
  by_cases h : b.length = 16
  · exact ⟨_, _, execLoadKey_ok off h s, rfl⟩
  · exact ⟨_, _, execLoadKey_error off h s, rfl⟩

/-- The response a block command's outcome shows is the one it delivered. -/
theorem blockCommand_result_iff {dir : Bool} {off : Nat} {b : List Byte} {s t : State} {r : Response}
    (h : blockCommand dir off b s = .next t) (hr : t.responses = s.responses ++ [r]) :
    r.result ≠ none ↔ r.status = .ok := by
  obtain ⟨st, o, hcmd, hiff⟩ := blockCommand_response dir off b s
  obtain rfl := Host.Outcome.next.inj (h.symm.trans hcmd)
  obtain rfl := List.singleton_inj.mp (List.append_cancel_left hr)
  exact hiff

/-- Settles O45: a block command has result bytes exactly with status OK, LOADKEY has none. -/
theorem responseFormat : Obligations.ResponseFormat := by
  refine ⟨rfl, rfl, rfl, rfl, fun st => ?_, fun st o => ⟨?_, ?_⟩, fun i s t r hi h hr => ?_⟩
  · rw [← statusCode_setWidth]; rfl
  · rw [← statusCode_setWidth]; rfl
  · simp [responseBytes]
  · cases i with
    | encrypt off b => simpa using blockCommand_result_iff h hr
    | decrypt off b => simpa using blockCommand_result_iff h hr
    | loadKey off b =>
      obtain ⟨u, st, hu, hresp⟩ := execLoadKey_response off b s
      obtain rfl := Host.Outcome.next.inj (h.symm.trans hu)
      obtain rfl := List.singleton_inj.mp (List.append_cancel_left (hr.symm.trans hresp))
      simp
    | _ => exact hi.elim

/-! ### Inputs that are ignored (R47, R72, U13) -/

/-- A block command depends on its payload and offset through the block alone, when there is one. -/
theorem blockCommand_congr (dir : Bool) {off off' : Nat} {b b' : List Byte} (hb : blockAvailable b off)
    (hb' : blockAvailable b' off') (heq : blockOperand b off hb = blockOperand b' off' hb') (s : State) :
    blockCommand dir off b s = blockCommand dir off' b' s := by
  cases hs : s.engine with
  | noKey => rw [blockCommand_noKey hs, blockCommand_noKey hs]
  | keyed ek dk => rw [blockCommand_ok hs dir hb, blockCommand_ok hs dir hb', heq]

/-- A payload holds its block operand. -/
theorem holdsBlock_blockOperand {b : List Byte} {off : Nat} (hb : blockAvailable b off) :
    HoldsBlock b off (blockOperand b off hb) := by
  intro j
  rw [getElem_blockOperand, List.getElem?_eq_getElem]

/-- Settles O35: LOADKEY does not name its `off`, and payloads with the same 8 bytes hold the same block. -/
theorem ignoredInputsChangeNothing : Obligations.IgnoredInputsChangeNothing := by
  refine ⟨fun _ _ _ _ => rfl, fun off off' b b' s hb hb' hsame => ?_⟩
  have hblock : blockOperand b off.toNat hb = blockOperand b' off'.toNat hb' :=
    blockOperand_eq hb fun j => (hsame j.val j.isLt).trans (holdsBlock_blockOperand hb' j)
  exact ⟨blockCommand_congr false hb hb' hblock s, blockCommand_congr true hb hb' hblock s⟩

/-! ### The group of MUL (R8, R82, R83, R85) -/

/-- The zero word stands for 65536, any other word for itself (R8). -/
theorem lift_cases (a : Word) : a.toNat = 0 ∧ lift a = 65536 ∨ a.toNat ≠ 0 ∧ lift a = a.toNat := by
  by_cases h : a = 0
  · exact .inl ⟨by rw [h]; rfl, if_pos h⟩
  · exact .inr ⟨fun h0 => h (BitVec.eq_of_toNat_eq h0), if_neg h⟩

theorem lift_pos (a : Word) : 0 < lift a := by
  rcases lift_cases a with ⟨-, h⟩ | ⟨hne, h⟩ <;> omega

theorem lift_lt (a : Word) : lift a < 65537 := by
  rcases lift_cases a with ⟨-, h⟩ | ⟨-, h⟩ <;> omega

@[simp] theorem toNat_low (v : Nat) : (low v).toNat = v % 65536 := BitVec.toNat_ofNat v 16

/-- `lift` undoes `low` on the residues 1 to 65536. -/
theorem lift_low {v : Nat} (hpos : 0 < v) (hlt : v < 65537) : lift (low v) = v := by
  have hcases := lift_cases (low v)
  rw [toNat_low] at hcases
  omega

/-- MUL of two nonzero words (R82). -/
theorem toNat_mul_of_ne_zero {a b : Word} (h : a.toNat * b.toNat ≠ 0) :
    (mul a b).toNat = a.toNat * b.toNat % 65537 % 65536 := by
  simp only [mul, ne_eq, h, not_false_eq_true, if_true, BitVec.toNat_ofNat]
  exact Nat.mod_mod _ _

/-- MUL with a zero operand (R82). -/
theorem toNat_mul_of_eq_zero {a b : Word} (h : a.toNat * b.toNat = 0) :
    ((mul a b).toNat : Int) = (1 - (a.toNat : Int) - (b.toNat : Int)) % 65536 := by
  simp only [mul, ne_eq, h, not_true_eq_false, if_false, BitVec.toNat_ofInt]
  omega

/-- 65536 is -1 modulo 65537. -/
theorem mul_65536_mod {v : Nat} (hpos : 0 < v) (hlt : v < 65537) : 65536 * v % 65537 = 65537 - v := by
  rw [show 65536 * v = 65537 - v + 65537 * (v - 1) by omega, Nat.add_mul_mod_self_left, Nat.mod_eq_of_lt (by omega)]

/-- R83: MUL multiplies the residues modulo 65537 that the words stand for; a zero word stands for 65536, that is -1. -/
theorem mul_eq_low_lift (a b : Word) : mul a b = low (lift a * lift b % 65537) := by
  apply BitVec.eq_of_toNat_eq
  rw [toNat_low]
  rcases lift_cases a with ⟨ha, hla⟩ | ⟨ha, hla⟩
  · have hmul := toNat_mul_of_eq_zero (a := a) (b := b) (by rw [ha, Nat.zero_mul])
    rw [hla, mul_65536_mod (lift_pos b) (lift_lt b)]
    rcases lift_cases b with ⟨hb, hlb⟩ | ⟨hb, hlb⟩ <;> omega
  · rcases lift_cases b with ⟨hb, hlb⟩ | ⟨hb, hlb⟩
    · have hmul := toNat_mul_of_eq_zero (a := a) (b := b) (by rw [hb, Nat.mul_zero])
      rw [hlb, Nat.mul_comm, mul_65536_mod (lift_pos a) (lift_lt a), hla]
      omega
    · rw [hla, hlb, toNat_mul_of_ne_zero (Nat.mul_ne_zero ha hb)]

/-- Square and multiply raises to the power `2 ^ k - 1`. -/
theorem powAllOnes_eq_pow_mod (v k : Nat) : powAllOnes v k = v ^ (2 ^ k - 1) % 65537 := by
  induction k with
  | zero => rfl
  | succ k ih =>
    have hexp : 2 ^ (k + 1) - 1 = 2 ^ k - 1 + (2 ^ k - 1) + 1 := by
      have := Nat.one_le_two_pow (n := k)
      omega
    have hr : powAllOnes v k ≡ v ^ (2 ^ k - 1) [MOD 65537] := ih ▸ Nat.mod_modEq _ _
    rw [hexp, pow_succ, pow_add]
    exact (hr.mul hr).mul_right v

/-- R85, the closed form. -/
theorem mulInv_eq_low_pow (a : Word) : mulInv a = low (lift a ^ 65535 % 65537) := by
  rw [mulInv, powAllOnes_eq_pow_mod, show 2 ^ 16 - 1 = 65535 by decide]

/-- Fermat's little theorem for the residue a word stands for; 65537 is a prime. -/
theorem lift_mul_pow_mod (a : Word) : lift a * (lift a ^ 65535 % 65537) % 65537 = 1 := by
  have hprime : Nat.Prime 65537 := by norm_num
  have hcoprime : Nat.Coprime (lift a) 65537 := (Nat.coprime_of_lt_prime (lift_pos a).ne' (lift_lt a) hprime).symm
  have hfermat := Nat.ModEq.pow_totient hcoprime
  rw [Nat.totient_prime hprime, show 65537 - 1 = 65535 + 1 by decide] at hfermat
  rw [Nat.mul_mod_mod, ← pow_succ']
  exact hfermat

/-- R91: MULINV inverts MUL. -/
theorem mul_mulInv_self (a : Word) : mul a (mulInv a) = 1 := by
  have hone := lift_mul_pow_mod a
  have hpos : 0 < lift a ^ 65535 % 65537 := Nat.pos_of_ne_zero fun h0 => by
    rw [h0, Nat.mul_zero] at hone
    exact absurd hone (by decide)
  rw [mul_eq_low_lift, mulInv_eq_low_pow, lift_low hpos (Nat.mod_lt _ (by decide)), hone]
  rfl

/-! ### Completion and frame of the unit operations (R63) -/

/-- Settles O9: each unit writes `unitOut` alone; the values are those of the group of MUL. -/
theorem arithmeticUnitsComplete : Obligations.ArithmeticUnitsComplete := by
  intro a b s
  refine ⟨rfl, rfl, ?_, ⟨mulInv a, mul_mulInv_self a, exec_mulInv a s⟩, exec_xor a b s, exec_copy a s⟩
  rw [exec_mul, mul_eq_low_lift]

/-- Settles O17: what `exec` is on the three units. -/
theorem keyUnitsComplete : Obligations.KeyUnitsComplete :=
  fun hi lo key e s => ⟨exec_pack16 hi lo s, exec_kexp key s, exec_kinv e s⟩

/-- Settles O27: what `exec` is on the four units. -/
theorem blockUnitsComplete : Obligations.BlockUnitsComplete :=
  fun x k o v blk sched s => ⟨exec_round x k s, exec_outt x o s, exec_unpack16 v s, exec_crypt blk sched s⟩

end Sys2Proof.Machine

/-!
PROOFS, family 40_modular_arithmetic: the two groups on words, and the Euclidean loop of R86.
-/

namespace Sys2Proof.Machine

/-! ### ADD and ADDINV (R80, R81) -/

@[simp] theorem toNat_add (a b : Word) : (add a b).toNat = (a.toNat + b.toNat) % 65536 :=
  (BitVec.toNat_ofNat _ 16).trans (Nat.mod_mod _ _)

@[simp] theorem toNat_addInv (a : Word) : (addInv a).toNat = (65536 - a.toNat) % 65536 :=
  (BitVec.toNat_ofNat _ 16).trans (Nat.mod_mod _ _)

/-- ADD is the addition of words. -/
theorem add_eq_add (a b : Word) : add a b = a + b :=
  BitVec.eq_of_toNat_eq ((toNat_add a b).trans (BitVec.toNat_add a b).symm)

/-- ADDINV is the negation of words. -/
theorem addInv_eq_neg (a : Word) : addInv a = -a :=
  BitVec.eq_of_toNat_eq ((toNat_addInv a).trans (BitVec.toNat_neg a).symm)

theorem add_addInv_self (a : Word) : add a (addInv a) = 0 := by
  rw [add_eq_add, addInv_eq_neg, add_neg_cancel]

theorem add_add_addInv (a k : Word) : add (add a k) (addInv k) = a := by
  rw [add_eq_add, add_eq_add, addInv_eq_neg, add_neg_cancel_right]

/-- A word is its own negation when twice it is 0 or 65536. -/
theorem addInv_eq_self_iff (a : Word) : addInv a = a ↔ a = 0 ∨ a = 0x8000 := by
  rw [← BitVec.toNat_inj, ← BitVec.toNat_inj, ← BitVec.toNat_inj, toNat_addInv,
    show (0 : Word).toNat = 0 by rfl, show (0x8000 : Word).toNat = 32768 by rfl]
  omega

/-! ### The words as the residues 1 to 65536, and the laws of MUL (R8, R82, R83) -/

theorem prime_65537 : Nat.Prime 65537 := by norm_num

/-- `low` undoes `lift`. -/
@[simp] theorem low_lift (a : Word) : low (lift a) = a := by
  apply BitVec.eq_of_toNat_eq
  rw [toNat_low]
  rcases lift_cases a with ⟨h0, h⟩ | ⟨-, h⟩ <;> omega

theorem lift_injective : Function.Injective lift := Function.LeftInverse.injective low_lift

theorem lift_mod (a : Word) : lift a % 65537 = lift a := Nat.mod_eq_of_lt (lift_lt a)

theorem lift_coprime (a : Word) : Nat.Coprime (lift a) 65537 :=
  (Nat.coprime_of_lt_prime (lift_pos a).ne' (lift_lt a) prime_65537).symm

/-- A nonzero word stands for itself. -/
theorem lift_of_ne_zero {a : Word} (h : a ≠ 0) : lift a = a.toNat := if_neg h

/-- No product of two residues is 0 modulo the prime. -/
theorem lift_mul_lift_mod_pos (a b : Word) : 0 < lift a * lift b % 65537 := by
  refine Nat.pos_of_ne_zero fun h0 => ?_
  have hdvd : 65537 ∣ lift b := (lift_coprime a).symm.dvd_of_dvd_mul_left (Nat.dvd_of_mod_eq_zero h0)
  exact absurd (Nat.le_of_dvd (lift_pos b) hdvd) (lift_lt b).not_ge

theorem lift_mul (a b : Word) : lift (mul a b) = lift a * lift b % 65537 := by
  rw [mul_eq_low_lift, lift_low (lift_mul_lift_mod_pos a b) (Nat.mod_lt _ (by decide))]

theorem word_mul_comm (a b : Word) : mul a b = mul b a := by
  rw [mul_eq_low_lift, Nat.mul_comm, ← mul_eq_low_lift]

theorem word_mul_assoc (a b c : Word) : mul (mul a b) c = mul a (mul b c) :=
  lift_injective (by simp only [lift_mul, Nat.mod_mul_mod, Nat.mul_mod_mod, Nat.mul_assoc])

theorem word_one_mul (a : Word) : mul 1 a = a := by
  rw [mul_eq_low_lift, show lift 1 = 1 by rfl, Nat.one_mul, lift_mod, low_lift]

theorem word_mul_one (a : Word) : mul a 1 = a := by rw [word_mul_comm, word_one_mul]

theorem mul_mul_mulInv (a k : Word) : mul (mul a k) (mulInv k) = a := by
  rw [word_mul_assoc, mul_mulInv_self, word_mul_one]

theorem mulInv_mul_mul (a b : Word) : mul (mulInv a) (mul a b) = b := by
  rw [word_mul_comm, word_mul_comm a b, mul_mul_mulInv]

theorem mul_mulInv_mul (a b : Word) : mul a (mul (mulInv a) b) = b := by
  rw [← word_mul_assoc, mul_mulInv_self, word_one_mul]

theorem word_mul_bijective (a : Word) : Function.Bijective (mul a) :=
  Function.bijective_iff_has_inverse.mpr ⟨mul (mulInv a), mulInv_mul_mul a, mul_mulInv_mul a⟩

/-- MUL with the zero word negates modulo 65537 (R82, the rows with one zero operand). -/
theorem toNat_zero_mul {b : Word} (h : b ≠ 0) : (mul 0 b).toNat = (65537 - b.toNat) % 65536 := by
  rw [mul_eq_low_lift, toNat_low, show lift 0 = 65536 by rfl, mul_65536_mod (lift_pos b) (lift_lt b), lift_of_ne_zero h]

theorem toNat_mul_toNat_le (a b : Word) : a.toNat * b.toNat ≤ 0xFFFE0001 :=
  Nat.mul_le_mul (Nat.le_of_lt_succ a.isLt) (Nat.le_of_lt_succ b.isLt)

/-! ### The inverse (R85, R91) -/

theorem word_mul_eq_one_iff (a y : Word) : mul a y = 1 ↔ y = mulInv a := by
  rw [← mul_mulInv_self a, (word_mul_bijective a).injective.eq_iff]

theorem mulInv_mulInv (a : Word) : mulInv (mulInv a) = a :=
  ((word_mul_eq_one_iff (mulInv a) a).mp (by rw [word_mul_comm, mul_mulInv_self])).symm

/-- The square roots of 1 modulo the prime are 1 and -1. -/
theorem word_mul_self_eq_one_iff (a : Word) : mul a a = 1 ↔ a = 0 ∨ a = 1 := by
  constructor
  · intro h
    have hsq : lift a * lift a % 65537 = 1 := by rw [← lift_mul, h]; rfl
    have hdvd : 65537 ∣ (lift a + 1) * (lift a - 1) := by
      rw [← Nat.mul_self_sub_mul_self_eq]
      exact (Nat.modEq_iff_dvd' (Nat.mul_le_mul (lift_pos a) (lift_pos a))).mp hsq.symm
    have hlt := lift_lt a
    rcases prime_65537.dvd_mul.mp hdvd with hplus | hminus
    · have hle := Nat.le_of_dvd (Nat.succ_pos _) hplus
      exact .inl (lift_injective (show lift a = 65536 by omega))
    · have hpos := lift_pos a
      have hroot := Nat.eq_zero_of_dvd_of_lt hminus (by omega)
      exact .inr (lift_injective (show lift a = 1 by omega))
  · rintro (rfl | rfl) <;> rfl

theorem mulInv_eq_self_iff (a : Word) : mulInv a = a ↔ a = 0 ∨ a = 1 := by
  rw [eq_comm, ← word_mul_eq_one_iff, word_mul_self_eq_one_iff]

/-! ### The divisions of the Euclidean loop (R86, R184) -/

/-- `s` and the remainders of the next `m` divisions, which start with `r` by `s`, are all 2 or more: after `m` divisions
the loop of R86 has still to go on. -/
def Survives : Nat → Nat → Nat → Prop
  | 0, _, s => 2 ≤ s
  | m + 1, r, s => 2 ≤ s ∧ Survives m s (r % s)

theorem Survives.two_le {m r s : Nat} (h : Survives m r s) : 2 ≤ s := by
  cases m with
  | zero => exact h
  | succ m => exact h.1

theorem Survives.mono {m n r s : Nat} (hmn : m ≤ n) (h : Survives n r s) : Survives m r s := by
  induction m generalizing n r s with
  | zero => exact h.two_le
  | succ m ih =>
    obtain ⟨n, rfl⟩ := Nat.exists_eq_succ_of_ne_zero (Nat.ne_zero_of_lt hmn)
    obtain ⟨htwo, hrest⟩ := h
    exact ⟨htwo, ih (Nat.le_of_succ_le_succ hmn) hrest⟩

/-- Lamé's bound: numbers that survive `m` divisions are at least as great as the Fibonacci numbers. -/
theorem Survives.fib_le {m r s : Nat} (h : Survives m r s) (hlt : s < r) :
    Nat.fib (m + 3) ≤ s ∧ Nat.fib (m + 4) ≤ r := by
  induction m generalizing r s with
  | zero => exact ⟨h, Nat.lt_of_le_of_lt h hlt⟩
  | succ m ih =>
    obtain ⟨htwo, hrest⟩ := h
    obtain ⟨hrem, hs⟩ := ih hrest (Nat.mod_lt r (Nat.zero_lt_of_lt htwo))
    have hr : s + r % s ≤ r := by
      have hq : s * 1 ≤ s * (r / s) := Nat.mul_le_mul_left s (Nat.div_pos hlt.le (Nat.zero_lt_of_lt htwo))
      have := Nat.div_add_mod r s
      omega
    have hfib : Nat.fib (m + 1 + 4) = Nat.fib (m + 3) + Nat.fib (m + 4) := Nat.fib_add_two
    exact ⟨hs, by omega⟩

/-- A search over the quotients of the divisions still to come, `m` of them, for `r` and `s` with `A * r + B * s = 65537`
that survive them all; `true` says that there are none. The quotients tried are those that Lamé's bound leaves. -/
def noSurvivor : Nat → Nat → Nat → Bool
  | 0, A, B => (List.range (65537 / (A + B) - 1)).all fun i => (65537 - B * (i + 2)) % A != 0
  | m + 1, A, B =>
    (List.range ((65537 - (B * Nat.fib (m + 4) + A * Nat.fib (m + 3))) / (A * Nat.fib (m + 4)))).all fun i =>
      noSurvivor m (A * (i + 1) + B) A

theorem not_survives_of_noSurvivor {m A B r s : Nat} (hsearch : noSurvivor m A B = true) (hA : 0 < A) (hlt : s < r)
    (hsum : A * r + B * s = 65537) : ¬ Survives m r s := by
  intro h
  induction m generalizing A B r s with
  | zero =>
    obtain ⟨i, rfl⟩ := Nat.exists_eq_add_of_le' (show 2 ≤ s from h)
    have hrange : i + 2 ≤ 65537 / (A + B) := (Nat.le_div_iff_mul_le (by omega)).mpr (by nlinarith)
    have hleaf := List.all_eq_true.mp hsearch i (List.mem_range.mpr (by omega))
    rw [← hsum, Nat.add_sub_cancel, Nat.mul_mod_right] at hleaf
    exact absurd hleaf (by decide)
  | succ m ih =>
    obtain ⟨htwo, hrest⟩ := h
    have hrem := Nat.mod_lt r (Nat.zero_lt_of_lt htwo)
    obtain ⟨hf3, hf4⟩ := hrest.fib_le hrem
    obtain ⟨i, hi⟩ := Nat.exists_eq_add_of_le' (Nat.div_pos hlt.le (Nat.zero_lt_of_lt htwo))
    have hsum' : (A * (i + 1) + B) * s + A * (r % s) = 65537 := by
      rw [← hsum, ← hi]
      conv_rhs => rw [← Nat.div_add_mod r s]
      ring
    have hle : A * (i + 1) * Nat.fib (m + 4) + B * Nat.fib (m + 4) + A * Nat.fib (m + 3) ≤ 65537 := by
      rw [← hsum', ← Nat.add_mul]
      exact Nat.add_le_add (Nat.mul_le_mul_left _ hf4) (Nat.mul_le_mul_left _ hf3)
    have hrange : i + 1 ≤ (65537 - (B * Nat.fib (m + 4) + A * Nat.fib (m + 3))) / (A * Nat.fib (m + 4)) := by
      rw [Nat.le_div_iff_mul_le (Nat.mul_pos hA (Nat.fib_pos.mpr (by omega))), ← Nat.mul_assoc, Nat.mul_comm _ A]
      omega
    have hnode := List.all_eq_true.mp hsearch i (List.mem_range.mpr hrange)
    exact ih hnode (by positivity) hrem hsum' hrest

/-- Lamé's bound alone would let a word survive 20 divisions, since `fib 24 ≤ 65537`. That none survives 18 is a property
of this one number (R184), so it is computed: the search visits the few thousand lists of quotients the bound leaves. -/
theorem noSurvivor_65537 : noSurvivor 18 1 0 = true := by decide +kernel

theorem not_survives_of_lt_65537 {m a : Nat} (hm : 18 ≤ m) (ha : a < 65537) : ¬ Survives m 65537 a := fun h =>
  not_survives_of_noSurvivor noSurvivor_65537 Nat.one_pos ha (by omega) (h.mono hm)

/-! ### The coefficients of the Euclidean loop (R86, R87) -/

/-- What a division of R86's loop keeps, for a loop entered with the residue `c`: `t0` and `t1` are coefficients of the
remainders `x` and `y`, with a minus sign for `y`, and they are small. -/
structure EuclidInvariant (c : ZMod 65537) (x y t0 t1 : Nat) : Prop where
  t0_mul : t0 * c = x
  t1_mul : t1 * c = -y
  sum : t1 * x + t0 * y = 65537

namespace EuclidInvariant

variable {c : ZMod 65537} {x y t0 t1 : Nat}

theorem start (a : Nat) : EuclidInvariant a a 65537 1 0 :=
  ⟨by simp, by simpa using ZMod.natCast_self 65537, by simp⟩

/-- The two halves of a pass are the same division, with the sign of the residue changed. -/
theorem swap (h : EuclidInvariant c x y t0 t1) : EuclidInvariant (-c) y x t1 t0 :=
  ⟨by rw [mul_neg, h.t1_mul, neg_neg], by rw [mul_neg, h.t0_mul], by rw [Nat.add_comm, h.sum]⟩

/-- The division of `y` by `x`, with which a pass begins. -/
theorem divide_y (h : EuclidInvariant c x y t0 t1) : EuclidInvariant c x (y % x) t0 (t1 + y / x * t0) where
  t0_mul := h.t0_mul
  t1_mul := by
    have hy : (x * (y / x : Nat) + (y % x : Nat) : ZMod 65537) = y := mod_cast congrArg Nat.cast (Nat.div_add_mod y x)
    push_cast
    linear_combination h.t1_mul + (y / x : Nat) * h.t0_mul + hy
  sum := by
    have hy := Nat.div_add_mod y x
    rw [← h.sum]
    conv_rhs => rw [← hy]
    ring

/-- The division of `x` by `y`, with which a pass ends. -/
theorem divide_x (h : EuclidInvariant c x y t0 t1) : EuclidInvariant c (x % y) y (t0 + x / y * t1) t1 := by
  simpa only [neg_neg] using h.swap.divide_y.swap

end EuclidInvariant

/-- A coefficient of the remainder 1 is the inverse (R85). -/
theorem low_eq_mulInv {a : Word} {v : Nat} (hv : v ≤ 65537) (h : (v * lift a : ZMod 65537) = 1) : low v = mulInv a := by
  have hmod : lift a * v % 65537 = 1 := by
    rw [Nat.mul_comm]
    exact (ZMod.natCast_eq_natCast_iff' (v * lift a) 1 65537).mp (mod_cast h)
  have hpos : 0 < v := Nat.pos_of_ne_zero fun h0 => by simp [h0] at hmod
  have hne : v ≠ 65537 := fun h0 => by simp [h0] at hmod
  rw [← word_mul_eq_one_iff, mul_eq_low_lift, lift_low hpos (by omega), hmod]
  rfl

/-- `low` of R86's results, which are reduced modulo 65536. -/
theorem ofNat_mod_eq_low (v : Nat) : BitVec.ofNat 16 (v % 65536) = low v :=
  BitVec.eq_of_toNat_eq (by simp [low])

theorem EuclidInvariant.result_y {a : Word} {x t0 t1 : Nat} (h : EuclidInvariant (lift a) x 1 t0 t1) (hx : 0 < x) :
    low (65537 - t1) = mulInv a := by
  have hle : t1 ≤ 65537 := (Nat.le_mul_of_pos_right t1 hx).trans (h.sum ▸ Nat.le_add_right _ _)
  refine low_eq_mulInv (Nat.sub_le _ _) ?_
  rw [Nat.cast_sub hle, ZMod.natCast_self, zero_sub, neg_mul, h.t1_mul, neg_neg, Nat.cast_one]

theorem EuclidInvariant.result_x {a : Word} {y t0 t1 : Nat} (h : EuclidInvariant (lift a) 1 y t0 t1) (hy : 0 < y) :
    low t0 = mulInv a := by
  have hle : t0 ≤ 65537 := (Nat.le_mul_of_pos_right t0 hy).trans (h.sum ▸ Nat.le_add_left _ _)
  exact low_eq_mulInv hle (by rw [h.t0_mul, Nat.cast_one])

/-- One pass of the loop. -/
theorem euclidPasses_succ (fuel x y t0 t1 : Nat) :
    euclidPasses (fuel + 1) x y t0 t1 =
      if y % x = 1 then low (65537 - (t1 + y / x * t0))
      else if x % (y % x) = 1 then low (t0 + x / (y % x) * (t1 + y / x * t0))
      else euclidPasses fuel (x % (y % x)) (y % x) (t0 + x / (y % x) * (t1 + y / x * t0)) (t1 + y / x * t0) := by
  simp only [euclidPasses, ofNat_mod_eq_low]

/-- The remainder of coprime numbers is coprime to the divisor, and it is not 0 but for the divisor 1. -/
theorem coprime_mod_and_two_le {x y : Nat} (h : Nat.Coprime x y) (hx : 2 ≤ x) (hne : y % x ≠ 1) :
    Nat.Coprime (y % x) x ∧ 2 ≤ y % x := by
  have hcop : Nat.Coprime (y % x) x := (Nat.gcd_rec x y).symm.trans h
  have hzero : y % x ≠ 0 := fun h0 => by rw [h0, Nat.coprime_zero_left] at hcop; omega
  exact ⟨hcop, by omega⟩

theorem euclidPasses_eq_mulInv {a : Word} {fuel x y t0 t1 : Nat} (hinv : EuclidInvariant (lift a) x y t0 t1)
    (hcop : Nat.Coprime x y) (hx : 2 ≤ x) (hend : ¬ Survives (2 * fuel) y x) :
    euclidPasses fuel x y t0 t1 = mulInv a := by
  induction fuel generalizing x y t0 t1 with
  | zero => exact absurd hx hend
  | succ fuel ih =>
    rw [euclidPasses_succ]
    have hhalf := hinv.divide_y
    split_ifs with hy1 hx1
    · exact (hy1 ▸ hhalf).result_y (Nat.zero_lt_of_lt hx)
    · have hypos : 0 < y % x := Nat.pos_of_ne_zero fun h0 => by rw [h0, Nat.mod_zero] at hx1; omega
      exact (hx1 ▸ hhalf.divide_x).result_x hypos
    · obtain ⟨hcopy, hy2⟩ := coprime_mod_and_two_le hcop hx hy1
      obtain ⟨hcopx, hx2⟩ := coprime_mod_and_two_le hcopy hy2 hx1
      exact ih hhalf.divide_x hcopx hx2 fun hrest => hend ⟨hx, hy2, hrest⟩

theorem ne_zero_of_one_lt_toNat {a : Word} (h : 1 < a.toNat) : a ≠ 0 := by
  rintro rfl
  exact absurd h (by decide)

/-- The words with which the loop is entered stand for themselves. -/
theorem lift_of_one_lt {a : Word} (h : 1 < a.toNat) : lift a = a.toNat :=
  lift_of_ne_zero (ne_zero_of_one_lt_toNat h)

theorem toNat_coprime {a : Word} (h : 1 < a.toNat) : Nat.Coprime a.toNat 65537 :=
  lift_of_one_lt h ▸ lift_coprime a

theorem mulInvEuclid_eq_mulInv {fuel : Nat} (hfuel : 9 ≤ fuel) (a : Word) : mulInvEuclid fuel a = mulInv a := by
  rw [mulInvEuclid]
  split_ifs with hle
  · have hself : a = 0 ∨ a = 1 := by
      rw [← BitVec.toNat_inj, ← BitVec.toNat_inj]
      exact Nat.le_one_iff_eq_zero_or_eq_one.mp hle
    exact ((mulInv_eq_self_iff a).mpr hself).symm
  · have hlt : 1 < a.toNat := Nat.lt_of_not_le hle
    have hinv : EuclidInvariant (lift a) a.toNat 65537 1 0 := lift_of_one_lt hlt ▸ EuclidInvariant.start _
    exact euclidPasses_eq_mulInv hinv (toNat_coprime hlt) hlt (not_survives_of_lt_65537 (by omega) (by omega))

theorem mulInv_ne_zero {a : Word} (h : a ≠ 0) : mulInv a ≠ 0 := fun h0 =>
  h (by rw [← mulInv_mulInv a, h0, (mulInv_eq_self_iff 0).mpr (.inl rfl)])

/-! ### The obligations -/

/-- Settles O3: the two branches of R82, and its table from the group form of R83. -/
theorem mulReducesTheTrueProductModulo65537 : Obligations.MulReducesTheTrueProductModulo65537 := by
  refine ⟨fun _ _ => toNat_mul_of_ne_zero, fun _ _ => toNat_mul_of_eq_zero, rfl, fun _ => toNat_zero_mul,
    fun a ha => ?_, word_one_mul, fun a b _ _ hp => ?_, fun a b ha hb => ?_, toNat_mul_toNat_le,
    by decide, by decide, by decide, by decide, by decide, by decide, by decide⟩
  · rw [word_mul_comm, toNat_zero_mul ha]
  · exact BitVec.eq_of_toNat_eq (by rw [toNat_mul_of_ne_zero (fun h0 => by simp [h0] at hp), hp]; rfl)
  · rw [← lift_of_ne_zero ha, ← lift_of_ne_zero hb]
    exact (lift_mul_lift_mod_pos a b).ne'

/-- Settles O4: `lift` and `low` are inverse to each other between the words and the residues 1 to 65536. -/
theorem mulIsTheGroupOperation : Obligations.MulIsTheGroupOperation := by
  refine ⟨mul_eq_low_lift, fun _ _ h => lift_injective h, fun v => ⟨fun ⟨hpos, hle⟩ => ?_, ?_⟩, word_mul_comm,
    word_mul_assoc, word_one_mul, word_mul_bijective⟩
  · exact ⟨low v, lift_low hpos (Nat.lt_succ_of_le hle)⟩
  · rintro ⟨a, rfl⟩
    exact ⟨lift_pos a, Nat.le_of_lt_succ (lift_lt a)⟩

/-- Settles O5: the inverse is unique because multiplication by a word is one-to-one; so a row of the table is right when
its product is 1. -/
theorem mulInvIsTheUniqueInverse : Obligations.MulInvIsTheUniqueInverse := by
  refine ⟨word_mul_eq_one_iff, mulInv_eq_low_pow, mulInv_eq_self_iff, mulInv_mulInv,
    fun p hp => ((word_mul_eq_one_iff p.1 p.2).mp ?_).symm, rfl⟩
  fin_cases hp <;> rfl

/-- Settles O6: nine passes are eighteen divisions, and no word survives eighteen. -/
theorem euclidLoopWithFuelNineNeverRunsOut : Obligations.EuclidLoopWithFuelNineNeverRunsOut := by
  refine ⟨fun _ => toNat_coprime, fun _ _ _ _ => rfl, fun _ a hfuel => mulInvEuclid_eq_mulInv hfuel a, fun a ha => ?_⟩
  rw [mulInvEuclid_eq_mulInv le_rfl]
  exact mulInv_ne_zero (ne_zero_of_one_lt_toNat ha)

/-- Settles O8: ADD is the addition of words, and MUL a group operation. -/
theorem inversesUndoTheirOperations : Obligations.InversesUndoTheirOperations :=
  ⟨add_addInv_self, mul_mulInv_self, add_add_addInv, mul_mul_mulInv⟩

/-- Settles O1: ADD is the addition of words. -/
theorem addIsTheSumModulo65536 : Obligations.AddIsTheSumModulo65536 := by
  refine ⟨toNat_add, fun a => ?_, fun a b => ?_, rfl, rfl, rfl, rfl, rfl⟩
  · rw [add_eq_add, BitVec.ofNat_eq_ofNat, BitVec.add_zero]
  · rw [add_eq_add, add_eq_add, BitVec.add_comm]

/-- Settles O2: ADDINV is the negation of words. -/
theorem addInvIsTheNegationModulo65536 : Obligations.AddInvIsTheNegationModulo65536 := by
  refine ⟨toNat_addInv, fun a => ?_, fun a => ?_, addInv_eq_self_iff, rfl, rfl, rfl, rfl, rfl⟩
  · rw [addInv_eq_neg, addInv_eq_neg, neg_neg]
  · rw [addInv_eq_neg, BitVec.neg_eq_not_add]; rfl

/-- Settles O7: bit `i` of an exclusive or is the exclusive or of the bits. -/
theorem xorIsBitwiseAndCopyIsTheIdentity : Obligations.XorIsBitwiseAndCopyIsTheIdentity := by
  refine ⟨fun a b i _ => ?_, fun a => BitVec.xor_zero, fun a => BitVec.xor_self, fun a => BitVec.xor_allOnes, rfl, rfl,
    fun _ => rfl, rfl⟩
  rw [xorWord, BitVec.getLsbD_xor]
  exact bne_iff_ne

end Sys2Proof.Machine

/-!
PROOFS, family 41_key_schedule: KEXP as the recurrence of R102, the table of R103 and the rotations of R104.
-/

namespace Sys2Proof.Machine

/-! ### The join of two source words (R102) -/

theorem toNat_rotateJoin (a b : Word) : (rotateJoin a b).toNat = ((a.toNat <<< 9) ||| (b.toNat >>> 7)) % 65536 :=
  (BitVec.toNat_ofNat _ 16).trans (Nat.mod_mod _ _)

/-- The 16 bits kept are the low 7 bits of `A` and the high 9 bits of `B`. -/
theorem rotateJoin_eq_append (a b : Word) : rotateJoin a b = a.extractLsb' 0 7 ++ b.extractLsb' 7 9 := by
  have hhigh : (a.toNat <<< 9) % 2 ^ 16 = (a.toNat % 2 ^ 7) <<< 9 := by simp only [Nat.shiftLeft_eq]; omega
  have hlow : (b.toNat >>> 7) % 2 ^ 16 = (b.toNat >>> 7) % 2 ^ 9 := by rw [Nat.shiftRight_eq_div_pow]; omega
  apply BitVec.eq_of_toNat_eq
  rw [toNat_rotateJoin, show 65536 = 2 ^ 16 from rfl, Nat.or_mod_two_pow, hhigh, hlow, BitVec.toNat_append,
    BitVec.extractLsb'_toNat, BitVec.extractLsb'_toNat, Nat.shiftRight_zero]

theorem extractLsb'_rotateJoin_high (a b : Word) : (rotateJoin a b).extractLsb' 9 7 = a.extractLsb' 0 7 := by
  rw [rotateJoin_eq_append, BitVec.extractLsb'_append_eq_left]

theorem extractLsb'_rotateJoin_low (a b : Word) : (rotateJoin a b).extractLsb' 0 9 = b.extractLsb' 7 9 := by
  rw [rotateJoin_eq_append, BitVec.extractLsb'_append_eq_right]

/-- Read from the most significant end, the join is `A` from its bit 9 on, then `B` from its first bit on. -/
theorem getMsbD_rotateJoin (a b : Word) {t : Nat} (ht : t < 16) :
    (rotateJoin a b).getMsbD t = if 7 ≤ t then b.getMsbD (t - 7) else a.getMsbD (9 + t) := by
  rw [rotateJoin_eq_append, BitVec.getMsbD_append]
  split
  case isTrue hle =>
    rw [BitVec.getMsbD_extractLsb', show 16 - (7 + 9 - (t - 7)) = t - 7 by omega]
    simp only [show t - 7 < 9 by omega, show 7 + 9 - (t - 7) ≤ 16 by omega, decide_true, Bool.true_and]
  case isFalse hlt =>
    rw [BitVec.getMsbD_extractLsb', show 16 - (0 + 7 - t) = 9 + t by omega]
    simp only [show t < 7 by omega, show 0 + 7 - t ≤ 16 by omega, decide_true, Bool.true_and]

/-! ### The words of the finished schedule (R102) -/

theorem sourceA_lt_self {i : Nat} (h : 8 ≤ i) : sourceA i < i := by
  obtain ⟨k, rfl⟩ := Nat.exists_eq_add_of_le h
  exact sourceA_lt k

theorem sourceB_lt_self {i : Nat} (h : 8 ≤ i) : sourceB i < i := by
  obtain ⟨k, rfl⟩ := Nat.exists_eq_add_of_le h
  exact sourceB_lt k

/-- Each later word is the join of its two source words. -/
theorem kexp_getElem_recurrence (key : Key) {i : Nat} (h8 : 8 ≤ i) (hi : i < 52) :
    (kexp key)[i] = rotateJoin ((kexp key)[sourceA i]'((sourceA_lt_self h8).trans hi))
      ((kexp key)[sourceB i]'((sourceB_lt_self h8).trans hi)) := by
  obtain ⟨k, rfl⟩ := Nat.exists_eq_add_of_le h8
  rw [kexp_getElem_of_lt key (k + 1) (8 + k) (by omega) (by omega), expandSteps_succ_last,
    kexp_getElem_of_lt key k _ (by omega) (sourceA_lt k), kexp_getElem_of_lt key k _ (by omega) (sourceB_lt k)]

/-- What holds of the key's eight words, and of a join when it holds of its two source words, holds of every word. -/
theorem kexp_induction {P : Nat → Word → Prop} (key : Key)
    (hkey : ∀ (j : Nat) (hj : j < 8), P j (pack16 key[2 * j] key[2 * j + 1]))
    (hjoin : ∀ i a b, 8 ≤ i → P (sourceA i) a → P (sourceB i) b → P i (rotateJoin a b)) (i : Nat) (hi : i < 52) :
    P i (kexp key)[i] := by
  induction i using Nat.strong_induction_on with
  | _ i ih =>
    rcases Nat.lt_or_ge i 8 with hlt | h8
    · rw [kexp_getElem_keyWord key i hlt]
      exact hkey i hlt
    · rw [kexp_getElem_recurrence key h8 hi]
      exact hjoin i _ _ h8 (ih _ (sourceA_lt_self h8) _) (ih _ (sourceB_lt_self h8) _)

/-- A key of equal bytes gives a constant schedule when its word is a fixed point of the recurrence. -/
theorem kexp_replicate {b : Byte} {w : Word} (hword : pack16 b b = w) (hfix : rotateJoin w w = w) :
    kexp (Vector.replicate 16 b) = Vector.replicate 52 w := by
  apply Vector.ext
  intro i hi
  rw [Vector.getElem_replicate]
  refine kexp_induction (P := fun _ v => v = w) _ (fun j hj => ?_) (fun i a b _ ha hb => ?_) i hi
  · rw [Vector.getElem_replicate, Vector.getElem_replicate, hword]
  · rw [ha, hb, hfix]

/-- Settles O13: `kexp_getElem_recurrence`, and the bits of a join; 0 and 0xFFFF are fixed points of the recurrence. -/
theorem kexpFollowsTheRecurrence : Obligations.KexpFollowsTheRecurrence := by
  refine ⟨fun key j => kexp_getElem_keyWord key j.val j.isLt, fun key i hi h8 => ?_,
    kexp_replicate (by decide) (by decide), kexp_replicate (by decide) (by decide), rfl⟩
  rw [kexp_getElem_recurrence key h8 hi]
  exact ⟨toNat_rotateJoin _ _, extractLsb'_rotateJoin_high _ _, extractLsb'_rotateJoin_low _ _⟩

/-! ### The table of source words (R103) -/

/-- R103, R104: the key bit, from the most significant end and not yet reduced modulo 128, that word `i` starts at. -/
def startBit (i : Nat) : Nat := 16 * (i % 8) + 25 * (i / 8)

theorem sourceTable_indexes : sourceTable.map (·.i) = List.range' 8 44 := by decide

/-- A row is fixed by its index: the source words are those of R102. -/
theorem sourceTable_row : ∀ row ∈ sourceTable,
    row.a = sourceA row.i ∧ row.b = sourceB row.i ∧ row.start = startBit row.i % 128 := by
  decide

theorem sourceTable_index_bounds {row : SourceRow} (h : row ∈ sourceTable) : 8 ≤ row.i ∧ row.i < 52 := by
  have hmem : row.i ∈ List.range' 8 44 := sourceTable_indexes ▸ List.mem_map_of_mem h
  simpa only [List.mem_range'_1] using hmem

/-- Settles O14: a row's source words are those of R102, so its word is the join of them. -/
theorem kexpSourceTableIsRight : Obligations.KexpSourceTableIsRight := by
  refine ⟨sourceTable_indexes, fun row hrow => ?_⟩
  obtain ⟨h8, h52⟩ := sourceTable_index_bounds hrow
  obtain ⟨ha, hb, hstart⟩ := sourceTable_row row hrow
  refine ⟨ha, hb, hstart, ha ▸ sourceA_lt_self h8, hb ▸ sourceB_lt_self h8, h52, fun key hi _ _ => ?_⟩
  simp only [ha, hb, kexp_getElem_recurrence key h8 hi]
  exact ⟨extractLsb'_rotateJoin_high _ _, extractLsb'_rotateJoin_low _ _⟩

/-! ### The rotation form (R104) -/

theorem startBit_sourceA {i : Nat} (h : 8 ≤ i) : (startBit (sourceA i) + 9) % 128 = startBit i % 128 := by
  unfold startBit sourceA
  split
  case isTrue hp =>
    obtain ⟨hpos, hgroup⟩ : (i - 7) % 8 = i % 8 + 1 ∧ i / 8 = (i - 7) / 8 + 1 := by omega
    omega
  case isFalse hp =>
    obtain ⟨hpos, hgroup, hlast⟩ : (i - 15) % 8 = 0 ∧ i / 8 = (i - 15) / 8 + 1 ∧ i % 8 = 7 := by omega
    omega

theorem startBit_sourceB {i : Nat} (h : 8 ≤ i) : startBit (sourceB i) % 128 = (startBit i + 7) % 128 := by
  unfold startBit sourceB
  split
  case isTrue hp =>
    obtain ⟨hpos, hgroup⟩ : i % 8 = (i - 14) % 8 + 6 ∧ i / 8 = (i - 14) / 8 + 1 := by omega
    omega
  case isFalse hp =>
    obtain ⟨hpos, hgroup⟩ : (i - 6) % 8 = i % 8 + 2 ∧ i / 8 = (i - 6) / 8 + 1 := by omega
    omega

/-- Bit `t` of word `p` of a 128-bit number, both counted from the most significant end. -/
theorem getMsbD_extractLsb'_word (x : BitVec 128) {p t : Nat} (hp : p < 8) (ht : t < 16) :
    (x.extractLsb' (112 - 16 * p) 16).getMsbD t = x.getMsbD (16 * p + t) := by
  rw [BitVec.getMsbD_extractLsb', show 128 - (112 - 16 * p + 16 - t) = 16 * p + t by omega]
  simp only [ht, show 112 - 16 * p + 16 - t ≤ 128 by omega, decide_true, Bool.true_and]

/-- Word `i` of the rotation form is 16 bits of the key, read around its end. -/
theorem getMsbD_rotationWord (key : Key) (i : Nat) {t : Nat} (ht : t < 16) :
    (rotationWord key i).getMsbD t = (keyNumber key).getMsbD ((startBit i + t) % 128) := by
  have hp : i % 8 < 8 := Nat.mod_lt i (by decide)
  have hbit : 25 * (i / 8) + (16 * (i % 8) + t) = startBit i + t := by unfold startBit; omega
  rw [rotationWord, getMsbD_extractLsb'_word _ hp ht, BitVec.getMsbD_rotateLeft, hbit, decide_eq_true (by omega),
    Bool.true_and]

theorem rotationWord_of_lt (key : Key) {j : Nat} (hj : j < 8) :
    rotationWord key j = pack16 key[2 * j] key[2 * j + 1] := by
  rw [rotationWord, Nat.div_eq_of_lt hj, Nat.mod_eq_of_lt hj, ← keyNumber_extractLsb'_word key j hj]
  congr 1
  exact BitVec.eq_of_getMsbD_eq fun n hn => by
    rw [BitVec.getMsbD_rotateLeft, decide_eq_true hn, Bool.true_and, Nat.mul_zero, Nat.zero_add, Nat.mod_eq_of_lt hn]

/-- The rotation form satisfies the recurrence: `A` holds the word's first 7 key bits from its bit 9 on, and `B` starts at
the key bit after them. -/
theorem rotateJoin_rotationWord (key : Key) {i : Nat} (h : 8 ≤ i) :
    rotateJoin (rotationWord key (sourceA i)) (rotationWord key (sourceB i)) = rotationWord key i := by
  have hA := startBit_sourceA h
  have hB := startBit_sourceB h
  apply BitVec.eq_of_getMsbD_eq
  intro t ht
  rw [getMsbD_rotateJoin _ _ ht, getMsbD_rotationWord key i ht]
  split <;>
    · rw [getMsbD_rotationWord key _ (by omega)]
      congr 1
      omega

/-- The two designs give the same words. -/
theorem kexp_eq_rotationWord (key : Key) (i : Nat) (hi : i < 52) : (kexp key)[i] = rotationWord key i := by
  refine kexp_induction (P := fun i w => w = rotationWord key i) key (fun j hj => (rotationWord_of_lt key hj).symm)
    (fun i a b h8 ha hb => ?_) i hi
  rw [ha, hb, rotateJoin_rotationWord key h8]

/-- Settles O15: the rotation form starts with the key's words and satisfies the recurrence of KEXP. -/
theorem kexpIsTheRotationForm : Obligations.KexpIsTheRotationForm := by
  refine fun key i hi => ⟨kexp_eq_rotationWord key i hi, fun t ht => ?_⟩
  have hword := getMsbD_rotationWord key i ht
  have hmod : (startBit i + t) % 128 < 128 := Nat.mod_lt _ (by decide)
  rw [BitVec.getMsbD_eq_getLsbD, BitVec.getMsbD_eq_getLsbD, decide_eq_true ht, decide_eq_true hmod, Bool.true_and,
    Bool.true_and] at hword
  rw [kexp_eq_rotationWord key i hi]
  exact hword

end Sys2Proof.Machine

/-!
PROOFS, family 42_subkey_inverter: KINV as the involutive table of R111, and the layers of a round that make it undo CRYPT
(R113).
-/

namespace Sys2Proof.Machine

/-! ### The mapping table (R111) -/

/-- Each entry of the table says where the word at its destination comes from. -/
theorem kinv_dst_of_mem (e : Schedule) {m : MapEntry} (h : m ∈ mapTable) :
    (kinv e)[m.dst.val] = m.t.apply e[m.src.val] := by
  obtain ⟨hlt, hrow⟩ := List.getElem?_eq_some_iff.mp (mapTable_at_dst m h)
  rw [kinv_getElem e m.dst.val m.dst.isLt]
  simp only [hrow]

theorem mapTable_dst : mapTable.map (·.dst) = List.finRange 52 := by decide

theorem mapTable_src_perm : (mapTable.map (·.src)).Perm (List.finRange 52) := by decide

/-- The source column is its own inverse, and paired entries have the same transform. -/
theorem mapTable_paired : ∀ m ∈ mapTable, ∃ m' ∈ mapTable, m'.dst = m.src ∧ m'.src = m.dst ∧ m'.t = m.t := by decide

/-- Every place of the schedule is the destination of an entry. -/
theorem exists_mapTable_dst_eq (i : Fin 52) : ∃ m ∈ mapTable, m.dst = i :=
  List.mem_map.mp (mapTable_dst ▸ List.mem_finRange i)

/-- Settles O19: the table has one entry for each word of KINV; its columns are closed facts. -/
theorem kinvIsTheMappingTable : Obligations.KinvIsTheMappingTable :=
  ⟨fun e _ h => kinv_dst_of_mem e h, mapTable_dst, mapTable_src_perm, mapTable_paired⟩

/-! ### The nine groups (R110) -/

theorem kinv_firstGroup (e : Schedule) :
    (kinv e)[0] = mulInv e[48] ∧ (kinv e)[1] = addInv e[49] ∧ (kinv e)[2] = addInv e[50] ∧
      (kinv e)[3] = mulInv e[51] ∧ (kinv e)[4] = e[46] ∧ (kinv e)[5] = e[47] :=
  ⟨rfl, rfl, rfl, rfl, rfl, rfl⟩

/-- The six entries of a middle group, with positions 1 and 2 exchanged. -/
theorem mapTable_middleGroup : ∀ i : Fin 7,
    ⟨⟨6 * (i + 1), by omega⟩, ⟨48 - 6 * (i + 1), by omega⟩, .mulInv⟩ ∈ mapTable ∧
    ⟨⟨6 * (i + 1) + 1, by omega⟩, ⟨48 - 6 * (i + 1) + 2, by omega⟩, .addInv⟩ ∈ mapTable ∧
    ⟨⟨6 * (i + 1) + 2, by omega⟩, ⟨48 - 6 * (i + 1) + 1, by omega⟩, .addInv⟩ ∈ mapTable ∧
    ⟨⟨6 * (i + 1) + 3, by omega⟩, ⟨48 - 6 * (i + 1) + 3, by omega⟩, .mulInv⟩ ∈ mapTable ∧
    ⟨⟨6 * (i + 1) + 4, by omega⟩, ⟨48 - 6 * (i + 1) - 2, by omega⟩, .copy⟩ ∈ mapTable ∧
    ⟨⟨6 * (i + 1) + 5, by omega⟩, ⟨48 - 6 * (i + 1) - 1, by omega⟩, .copy⟩ ∈ mapTable := by
  decide

theorem kinv_middleGroup (e : Schedule) (j : Nat) (h1 : 1 ≤ j) (h7 : j ≤ 7) :
    (kinv e)[6 * j] = mulInv e[48 - 6 * j] ∧ (kinv e)[6 * j + 1] = addInv e[48 - 6 * j + 2] ∧
      (kinv e)[6 * j + 2] = addInv e[48 - 6 * j + 1] ∧ (kinv e)[6 * j + 3] = mulInv e[48 - 6 * j + 3] ∧
      (kinv e)[6 * j + 4] = e[48 - 6 * j - 2] ∧ (kinv e)[6 * j + 5] = e[48 - 6 * j - 1] := by
  obtain ⟨i, rfl⟩ := Nat.exists_eq_add_of_le' h1
  obtain ⟨row0, row1, row2, row3, row4, row5⟩ := mapTable_middleGroup ⟨i, by omega⟩
  exact ⟨kinv_dst_of_mem e row0, kinv_dst_of_mem e row1, kinv_dst_of_mem e row2, kinv_dst_of_mem e row3,
    kinv_dst_of_mem e row4, kinv_dst_of_mem e row5⟩

theorem kinv_lastGroup (e : Schedule) :
    (kinv e)[48] = mulInv e[0] ∧ (kinv e)[49] = addInv e[1] ∧ (kinv e)[50] = addInv e[2] ∧
      (kinv e)[51] = mulInv e[3] :=
  ⟨rfl, rfl, rfl, rfl⟩

@[simp] theorem addInv_zero : addInv 0 = 0 := (addInv_eq_self_iff 0).mpr (.inl rfl)
@[simp] theorem mulInv_zero : mulInv 0 = 0 := (mulInv_eq_self_iff 0).mpr (.inl rfl)
@[simp] theorem mulInv_one : mulInv 1 = 1 := (mulInv_eq_self_iff 1).mpr (.inr rfl)

/-- No transform changes the zero word. -/
@[simp] theorem Transform.apply_zero (t : Transform) : t.apply 0 = 0 := by
  cases t with
  | copy => rfl
  | addInv => exact addInv_zero
  | mulInv => exact mulInv_zero

theorem kinv_replicate_zero : kinv (Vector.replicate 52 0) = Vector.replicate 52 0 := by
  ext1 i hi
  rw [kinv_getElem _ i hi, Vector.getElem_replicate, Vector.getElem_replicate, Transform.apply_zero]

/-- Settles O18: the 52 words group by group, the middle ones by their entries of the mapping table; no transform changes 0. -/
theorem kinvFollowsThePseudocode : Obligations.KinvFollowsThePseudocode :=
  ⟨fun e => ⟨kinv_firstGroup e, kinv_middleGroup e, kinv_lastGroup e⟩, kinv_replicate_zero, mulInv_zero, addInv_zero,
    mulInv_one, rfl⟩

/-! ### KINV is an involution (R114) -/

theorem Transform.apply_apply (t : Transform) (a : Word) : t.apply (t.apply a) = a := by
  cases t with
  | copy => rfl
  | addInv => simp only [Transform.apply_addInv, addInv_eq_neg, neg_neg]
  | mulInv => exact mulInv_mulInv a

/-- A word goes to its paired place and back, under the same transform both times. -/
theorem kinv_involutive : Function.Involutive kinv := by
  intro e
  ext1 i hi
  obtain ⟨m, hm, hdst⟩ := exists_mapTable_dst_eq ⟨i, hi⟩
  obtain ⟨m', hm', hdst', hsrc', ht'⟩ := mapTable_paired m hm
  have hout := kinv_dst_of_mem (kinv e) hm
  have hback := kinv_dst_of_mem e hm'
  simp only [hdst', hsrc', ht', hdst] at hout hback
  rw [hout, hback, Transform.apply_apply]

/-! ### The layers of a round (R120, R123) -/

/-- The middle two data words exchanged. -/
def exchangeWords (x : Quad) : Quad := ⟨x.x0, x.x2, x.x1, x.x3⟩

/-- The middle two subkeys exchanged. -/
def exchangeSubkeys (k : OutKeys) : OutKeys := ⟨k.k0, k.k2, k.k1, k.k3⟩

/-- The subkeys that undo those of a key layer. -/
def inverseSubkeys (k : OutKeys) : OutKeys := ⟨mulInv k.k0, addInv k.k1, addInv k.k2, mulInv k.k3⟩

/-- The first four subkeys of a round, those of its key layer. -/
def layerSubkeys (k : RoundKeys) : OutKeys := ⟨k.k0, k.k1, k.k2, k.k3⟩

/-- `s0` to `s3` of R120: each data word with its own subkey. -/
def keyLayer (x : Quad) (k : OutKeys) : Quad := ⟨mul x.x0 k.k0, add x.x1 k.k1, add x.x2 k.k2, mul x.x3 k.k3⟩

/-- `s0` to `s3` of R120 joined with the outputs of the inner mixing step, their places not yet exchanged. -/
def mixLayer (x : Quad) (k4 k5 : Word) : Quad :=
  let m := innerMix (xorWord x.x0 x.x2) (xorWord x.x1 x.x3) k4 k5
  ⟨xorWord x.x0 m.1, xorWord x.x1 m.2, xorWord x.x2 m.1, xorWord x.x3 m.2⟩

theorem roundFn_eq_layers (x : Quad) (k : RoundKeys) :
    roundFn x k = exchangeWords (mixLayer (keyLayer x (layerSubkeys k)) k.k4 k.k5) := rfl

theorem outFn_eq_keyLayer (x : Quad) (k : OutKeys) : outFn x k = keyLayer (exchangeWords x) k := rfl

@[simp] theorem exchangeWords_exchangeWords (x : Quad) : exchangeWords (exchangeWords x) = x := rfl

theorem keyLayer_exchange (x : Quad) (k : OutKeys) :
    keyLayer (exchangeWords x) (exchangeSubkeys k) = exchangeWords (keyLayer x k) := rfl

@[simp] theorem keyLayer_inverseSubkeys (x : Quad) (k : OutKeys) : keyLayer (keyLayer x k) (inverseSubkeys k) = x := by
  simp only [keyLayer, inverseSubkeys, mul_mul_mulInv, add_add_addInv]

theorem xorWord_xorWord_self (a m : Word) : xorWord (xorWord a m) m = a := by
  rw [xorWord, xorWord, BitVec.xor_assoc, BitVec.xor_self, BitVec.xor_zero]

/-- Joining one word to both operands leaves their exclusive or as it was. -/
theorem xorWord_xorWord_xorWord (a b m : Word) : xorWord (xorWord a m) (xorWord b m) = xorWord a b := by
  simp only [xorWord]
  rw [BitVec.xor_comm b, ← BitVec.xor_assoc, BitVec.xor_assoc a, BitVec.xor_self, BitVec.xor_zero]

/-- The mixing layer undoes itself: the inner mixing step has the same two inputs both times. -/
@[simp] theorem mixLayer_mixLayer (x : Quad) (k4 k5 : Word) : mixLayer (mixLayer x k4 k5) k4 k5 = x := by
  simp only [mixLayer, xorWord_xorWord_xorWord, xorWord_xorWord_self]

/-- R113: when the key layer of a round `k'` brings the output of a round `k` back in front of the mixing layer, and the two
rounds mix with the same subkeys, round `k'` removes the mixing of round `k` and leaves its key layer. -/
theorem roundFn_undoes_mixLayer {x y : Quad} {k k' : RoundKeys} (h4 : k'.k4 = k.k4) (h5 : k'.k5 = k.k5)
    (hy : keyLayer y (layerSubkeys k') = exchangeWords (roundFn x k)) :
    roundFn y k' = exchangeWords (keyLayer x (layerSubkeys k)) := by
  rw [roundFn_eq_layers, hy, h4, h5, roundFn_eq_layers, exchangeWords_exchangeWords, mixLayer_mixLayer]

/-! ### The inverted schedule, round by round (R112) -/

theorem layerSubkeys_kinv_zero (e : Schedule) : layerSubkeys (roundKeys (kinv e) 0) = inverseSubkeys (outKeys e) := by
  obtain ⟨h0, h1, h2, h3, -, -⟩ := kinv_firstGroup e
  exact (OutKeys.mk.injEq ..).mpr ⟨h0, h1, h2, h3⟩

/-- Decryption round `i + 2` has the inverted subkeys of encryption round `8 - i` (rounds counted from 1). -/
theorem layerSubkeys_kinv_succ (e : Schedule) (i : Fin 7) :
    layerSubkeys (roundKeys (kinv e) i.succ) =
      exchangeSubkeys (inverseSubkeys (layerSubkeys (roundKeys e i.castSucc.rev))) := by
  obtain ⟨h0, h1, h2, h3, -, -⟩ := kinv_middleGroup e (i + 1) (by omega) (by omega)
  have hsrc : 48 - 6 * (i.val + 1) = 6 * i.castSucc.rev.val := by simp only [Fin.val_rev, Fin.val_castSucc]; omega
  simp only [hsrc] at h0 h1 h2 h3
  exact (OutKeys.mk.injEq ..).mpr ⟨h0, h1, h2, h3⟩

theorem outKeys_kinv (e : Schedule) : outKeys (kinv e) = inverseSubkeys (layerSubkeys (roundKeys e 0)) := by
  obtain ⟨h0, h1, h2, h3⟩ := kinv_lastGroup e
  exact (OutKeys.mk.injEq ..).mpr ⟨h0, h1, h2, h3⟩

/-- The mixing subkeys are those of the schedule, in reverse order of rounds. -/
theorem mixSubkeys_kinv (e : Schedule) (r : Fin 8) :
    (roundKeys (kinv e) r).k4 = (roundKeys e r.rev).k4 ∧ (roundKeys (kinv e) r).k5 = (roundKeys e r.rev).k5 := by
  cases r using Fin.cases with
  | zero =>
    obtain ⟨-, -, -, -, h4, h5⟩ := kinv_firstGroup e
    exact ⟨h4, h5⟩
  | succ i =>
    obtain ⟨-, -, -, -, h4, h5⟩ := kinv_middleGroup e (i + 1) (by omega) (by omega)
    have h4src : 48 - 6 * (i.val + 1) - 2 = 6 * i.succ.rev.val + 4 := by simp only [Fin.val_rev, Fin.val_succ]; omega
    have h5src : 48 - 6 * (i.val + 1) - 1 = 6 * i.succ.rev.val + 5 := by simp only [Fin.val_rev, Fin.val_succ]; omega
    simp only [h4src] at h4
    simp only [h5src] at h5
    exact ⟨h4, h5⟩

/-! ### Decryption runs back through the rounds of encryption (R113) -/

/-- The data words after the first `n` rounds, for `n` up to 8. -/
def afterRounds (s : Schedule) (x : Quad) : (n : Nat) → Quad
  | 0 => x
  | r + 1 => roundFn (afterRounds s x r) (roundKeys s (Fin.ofNat 8 r))

theorem eightRounds_eq_afterRounds (s : Schedule) (x : Quad) : eightRounds s x = afterRounds s x 8 := rfl

theorem afterRounds_zero (s : Schedule) (x : Quad) : afterRounds s x 0 = x := rfl

theorem afterRounds_succ (s : Schedule) (x : Quad) (r : Fin 8) :
    afterRounds s x (r + 1) = roundFn (afterRounds s x r) (roundKeys s r) := by
  rw [afterRounds, Fin.ofNat_val_eq_self]

/-- One decryption round, from the output of an encryption round back to that round's key layer. -/
theorem afterRounds_kinv_step {e : Schedule} {x c : Quad} {r : Fin 8}
    (hc : keyLayer (afterRounds (kinv e) c r) (layerSubkeys (roundKeys (kinv e) r)) =
      exchangeWords (afterRounds e x (r.rev + 1))) :
    afterRounds (kinv e) c (r + 1) =
      exchangeWords (keyLayer (afterRounds e x r.rev) (layerSubkeys (roundKeys e r.rev))) := by
  obtain ⟨h4, h5⟩ := mixSubkeys_kinv e r
  rw [afterRounds_succ] at hc ⊢
  exact roundFn_undoes_mixLayer h4 h5 hc

/-- Decryption round `r`, counted from 0, gives the key layer of encryption round `7 - r`, places exchanged. -/
theorem afterRounds_kinv (e : Schedule) (x : Quad) (r : Fin 8) :
    afterRounds (kinv e) (outFn (eightRounds e x) (outKeys e)) (r + 1) =
      exchangeWords (keyLayer (afterRounds e x r.rev) (layerSubkeys (roundKeys e r.rev))) := by
  induction r using Fin.induction with
  | zero =>
    refine afterRounds_kinv_step ?_
    rw [Fin.val_zero, afterRounds_zero, layerSubkeys_kinv_zero, outFn_eq_keyLayer, keyLayer_inverseSubkeys,
      eightRounds_eq_afterRounds, show (Fin.rev (0 : Fin 8)).val + 1 = 8 by rfl]
  | succ i ih =>
    refine afterRounds_kinv_step ?_
    have hsrc : i.castSucc.rev.val = i.succ.rev.val + 1 := by
      simp only [Fin.val_rev, Fin.val_castSucc, Fin.val_succ]
      omega
    rw [Fin.val_castSucc] at ih
    rw [Fin.val_succ, ih, layerSubkeys_kinv_succ, keyLayer_exchange, keyLayer_inverseSubkeys, hsrc]

/-- The eight rounds and the output transformation under the inverted schedule undo those under the schedule. -/
theorem outFn_eightRounds_kinv (e : Schedule) (x : Quad) :
    outFn (eightRounds (kinv e) (outFn (eightRounds e x) (outKeys e))) (outKeys (kinv e)) = x := by
  have hlast : eightRounds (kinv e) (outFn (eightRounds e x) (outKeys e)) =
      exchangeWords (keyLayer x (layerSubkeys (roundKeys e 0))) := afterRounds_kinv e x 7
  rw [hlast, outFn_eq_keyLayer, exchangeWords_exchangeWords, outKeys_kinv, keyLayer_inverseSubkeys]

/-! ### The block and its words (R127) -/

@[simp] theorem hiByte_pack16 (hi lo : Byte) : hiByte (pack16 hi lo) = hi := by
  apply BitVec.eq_of_toNat_eq
  rw [toNat_hiByte, toNat_pack16]
  omega

@[simp] theorem loByte_pack16 (hi lo : Byte) : loByte (pack16 hi lo) = lo := by
  apply BitVec.eq_of_toNat_eq
  rw [toNat_loByte, toNat_pack16]
  omega

@[simp] theorem blockWords_wordsBlock (r : Quad) : blockWords (wordsBlock r) = r := by
  simp [blockWords, wordsBlock]

@[simp] theorem wordsBlock_blockWords (blk : Block) : wordsBlock (blockWords blk) = blk := by
  simp only [wordsBlock, blockWords, hiByte_pack16, loByte_pack16]
  ext1 j hj
  interval_cases j <;> rfl

/-! ### Decryption returns the block (R114) -/

/-- R113, R128: the inverted schedule decrypts. -/
theorem crypt_crypt_kinv (e : Schedule) (blk : Block) : crypt (crypt blk e) (kinv e) = blk := by
  rw [crypt, crypt, blockWords_wordsBlock, outFn_eightRounds_kinv, wordsBlock_blockWords]

/-- Settles O20: the table is an involution; the order decrypt, then encrypt is `crypt_crypt_kinv` at the schedule
`kinv e`, whose inverse is `e`. -/
theorem kinvIsAnInvolution : Obligations.KinvIsAnInvolution := by
  refine ⟨kinv_involutive, kinv_involutive.bijective, fun e blk => ?_⟩
  have hundo := crypt_crypt_kinv (kinv e) blk
  rwa [kinv_involutive e] at hundo

end Sys2Proof.Machine

/-!
PROOFS, family 43_round_and_block: ROUND as layers that can be undone, and CRYPT as eight rounds and the output
transformation.
-/

namespace Sys2Proof.Machine

/-! ### ROUND and its inverse (R120, R122) -/

/-- Only the identity of the group keeps the zero word, which stands for 65536. -/
theorem zero_mul_eq_zero_iff (b : Word) : mul 0 b = 0 ↔ b = 1 :=
  (word_mul_bijective 0).injective.eq_iff' (word_mul_one 0)

theorem inverseSubkeys_inverseSubkeys (k : OutKeys) : inverseSubkeys (inverseSubkeys k) = k := by
  simp only [inverseSubkeys, mulInv_mulInv, addInv_eq_neg, neg_neg]

/-- R122 runs the layers of ROUND backwards, the key layer with the inverse subkeys. -/
theorem roundInverse_eq_layers (y : Quad) (k : RoundKeys) :
    roundInverse y k = keyLayer (mixLayer (exchangeWords y) k.k4 k.k5) (inverseSubkeys (layerSubkeys k)) := rfl

theorem roundInverse_roundFn (x : Quad) (k : RoundKeys) : roundInverse (roundFn x k) k = x := by
  rw [roundInverse_eq_layers, roundFn_eq_layers, exchangeWords_exchangeWords, mixLayer_mixLayer, keyLayer_inverseSubkeys]

theorem roundFn_roundInverse (y : Quad) (k : RoundKeys) : roundFn (roundInverse y k) k = y := by
  have hlayer (z : Quad) : keyLayer (keyLayer z (inverseSubkeys (layerSubkeys k))) (layerSubkeys k) = z := by
    simpa only [inverseSubkeys_inverseSubkeys] using keyLayer_inverseSubkeys z (inverseSubkeys (layerSubkeys k))
  rw [roundFn_eq_layers, roundInverse_eq_layers, hlayer, mixLayer_mixLayer, exchangeWords_exchangeWords]

/-- Settles O22: the inverse of R122 undoes ROUND layer by layer, on both sides. -/
theorem roundIsABijection : Obligations.RoundIsABijection :=
  ⟨roundInverse_roundFn, roundFn_roundInverse, fun k => Function.bijective_iff_has_inverse.mpr
    ⟨fun y => roundInverse y k, fun x => roundInverse_roundFn x k, fun y => roundFn_roundInverse y k⟩⟩

/-- Settles O21: multiplication by 0 is one-to-one and takes 1 to 0; the fourteen values are those ROUND computes. -/
theorem roundFollowsThePseudocode : Obligations.RoundFollowsThePseudocode := by
  refine ⟨rfl, zero_mul_eq_zero_iff, fun a => ?_, rfl, ?_⟩
  · rw [word_mul_comm, zero_mul_eq_zero_iff]
  · rintro x0 x1 x2 x3 k0 k1 k2 k3 k4 k5 _ _ _ _ _ _ _ _ _ _ rfl rfl rfl rfl rfl rfl rfl rfl rfl rfl
    rfl

/-! ### OUTT (R123) -/

/-- Settles O23: OUTT is the key layer behind an exchange of the middle words. -/
theorem outputTransformationExchangesTheMiddleWords : Obligations.OutputTransformationExchangesTheMiddleWords :=
  ⟨fun x0 x1 x2 x3 k0 k1 k2 k3 => outFn_eq_keyLayer ⟨x0, x1, x2, x3⟩ ⟨k0, k1, k2, k3⟩, rfl, rfl⟩

/-! ### CRYPT (R127, R128) -/

/-- R127: data words that pass through the rounds one after another are those after the first `n` rounds. -/
theorem eq_afterRounds {s : Schedule} {x : Nat → Quad}
    (hround : ∀ r : Fin 8, x (r + 1) = roundFn (x r) (roundKeys s r)) {n : Nat} (hn : n ≤ 8) :
    x n = afterRounds s (x 0) n := by
  induction n with
  | zero => rw [afterRounds_zero]
  | succ r ih => rw [hround ⟨r, hn⟩, ih (Nat.le_of_succ_le hn), ← afterRounds_succ s (x 0) ⟨r, hn⟩]

/-- Settles O24: the sequence of the statement ends in the data words after eight rounds. -/
theorem cryptRunsEightRoundsAndTheOutputTransformation : Obligations.CryptRunsEightRoundsAndTheOutputTransformation := by
  refine ⟨rfl, by decide, ?_⟩
  rintro blk s x _ hstart hround rfl
  have hlast : x 8 = eightRounds s (blockWords blk) := by
    rw [eq_afterRounds (fun r => hround r r.isLt) le_rfl, hstart, eightRounds_eq_afterRounds, blockWords]
  rw [hlast]
  rfl

/-- R114, R128: encryption undoes decryption with the inverted schedule. -/
theorem crypt_kinv_crypt (e : Schedule) (blk : Block) : crypt (crypt blk (kinv e)) e = blk := by
  obtain ⟨-, -, hundo⟩ := kinvIsAnInvolution
  exact hundo e blk

/-- Settles O25: CRYPT under the inverted schedule is the inverse on both sides. -/
theorem cryptIsABijectionOnBlocks : Obligations.CryptIsABijectionOnBlocks := fun s =>
  Function.bijective_iff_has_inverse.mpr
    ⟨fun blk => crypt blk (kinv s), crypt_crypt_kinv s, crypt_kinv_crypt s⟩

/-- Settles O26: both orders, each the inverse of the other. -/
theorem cryptRoundTripsUnderTheInvertedSchedule : Obligations.CryptRoundTripsUnderTheInvertedSchedule :=
  fun e blk => ⟨crypt_crypt_kinv e blk, crypt_kinv_crypt e blk⟩

end Sys2Proof.Machine

/-!
PROOFS, family 44_commands: LOADKEY, the two block commands as one function of the engine, their round trip, and the
parts of a request.
-/

namespace Sys2Proof.Machine

/-! ### A block command as a response of the engine (R137, R139, R140) -/

/-- R137, R139: the response of a block command, which the request and the engine decide. -/
def blockResponse (dir : Bool) (off : Nat) (b : List Byte) : Engine → Response
  | .noKey => ⟨.keyNotLoaded, none⟩
  | .keyed ek dk =>
    if hb : blockAvailable b off then ⟨.ok, some (crypt (blockOperand b off hb) (selectSchedule dir ek dk))⟩
    else ⟨.invalidBlockLength, none⟩

/-- A block command adds that response to the state and does nothing else. -/
theorem blockCommand_eq_blockResponse (dir : Bool) (off : Nat) (b : List Byte) (s : State) :
    blockCommand dir off b s =
      .next (respond (blockResponse dir off b s.engine).status (blockResponse dir off b s.engine).result s) := by
  rcases blockCommand_cases dir off b s with ⟨hs, h⟩ | ⟨ek, dk, hs, hb, h⟩ | ⟨ek, dk, hb, hs, h⟩
  · rw [h, hs, blockResponse]
  · rw [h, hs, blockResponse, dif_neg (Nat.not_le_of_lt hb)]
  · rw [h, hs, blockResponse, dif_pos hb]

/-- Settles O34: the function is `blockResponse` at the request, in the command's direction. -/
theorem blockCommandsArePure : Obligations.BlockCommandsArePure := by
  intro off b i hi
  rcases List.mem_pair.mp hi with rfl | rfl
  · exact ⟨blockResponse false off.toNat b, blockCommand_eq_blockResponse false off.toNat b⟩
  · exact ⟨blockResponse true off.toNat b, blockCommand_eq_blockResponse true off.toNat b⟩

/-! ### Two block commands in opposite directions (R141) -/

/-- The payload that is a block's own bytes holds the block at byte 0. -/
theorem holdsBlock_toList (blk : Block) : HoldsBlock blk.toList 0 blk := by
  intro j
  rw [Nat.zero_add, Vector.getElem?_toList, Vector.getElem?_eq_getElem]

/-- With a key in place a block command runs from every state, and the one in the other direction runs after it on its
result; when the transforms of the two cancel, it answers the block of the first. -/
theorem blockCommand_roundTrip {s : State} {ek dk : Schedule} {blk : Block} (dir : Bool) (hs : s.engine = .keyed ek dk)
    (hundo : crypt (crypt blk (selectSchedule dir ek dk)) (selectSchedule (!dir) ek dk) = blk) :
    ∃ c : Block, ∃ t : State, blockCommand dir 0 blk.toList s = .next t ∧
      t = { s with responses := s.responses ++ [⟨.ok, some c⟩] } ∧
      blockCommand (!dir) 0 c.toList t = .next { t with responses := t.responses ++ [⟨.ok, some blk⟩] } := by
  refine ⟨crypt blk (selectSchedule dir ek dk), _, blockCommand_of_holdsBlock hs (holdsBlock_toList blk) dir, rfl, ?_⟩
  rw [blockCommand_of_holdsBlock ((respond_engine _ _ s).trans hs) (holdsBlock_toList _), hundo]
  rfl

/-- The known-answer vector of the document, in the direction of encryption. -/
theorem crypt_knownAnswer :
    crypt #v[0x00, 0x00, 0x00, 0x01, 0x00, 0x02, 0x00, 0x03]
      (kexp #v[0x00, 0x01, 0x00, 0x02, 0x00, 0x03, 0x00, 0x04, 0x00, 0x05, 0x00, 0x06, 0x00, 0x07, 0x00, 0x08]) =
      #v[0x11, 0xFB, 0xED, 0x2B, 0x01, 0x98, 0x6D, 0xE5] := by decide +kernel

/-- Settles O36: under the invariant `DK` is the inverted `EK`, so each transform undoes the other; the vector's
decryption is its encryption undone. -/
theorem commandsRoundTrip : Obligations.CommandsRoundTrip := by
  refine ⟨?_, fun s blk hinv hkv => ?_⟩
  · rintro _ rfl
    exact ⟨crypt_knownAnswer, by rw [← crypt_knownAnswer, crypt_crypt_kinv]⟩
  · obtain ⟨ek, dk, hs⟩ := s.kv_eq_true_iff.mp hkv
    obtain ⟨-, -, rfl⟩ := hinv ek dk hs
    exact ⟨blockCommand_roundTrip false hs (crypt_crypt_kinv ek blk),
      blockCommand_roundTrip true hs (crypt_kinv_crypt ek blk)⟩

/-! ### A part of a request (R60, R143, U7) -/

/-- Fields of which the end is missing: no `off`, no `n`, or fewer bytes than `n` says. -/
theorem decodeFields_take {b : List Byte} {k : Nat} (o : Op) (cw off : Byte) (hb : payloadFits b = true)
    (hk : k < b.length + 2) : decodeFields o cw ((off :: BitVec.ofNat 8 b.length :: b).take k) = .incomplete := by
  match k with
  | 0 | 1 => rfl
  | k + 2 =>
    have hshort : (b.take k).length < (BitVec.ofNat 8 b.length).toNat := by
      rw [lengthField_toNat hb, List.length_take]
      omega
    rw [List.take_succ_cons, List.take_succ_cons, decodeFields, if_pos hshort]

/-- The command word of a host command and a part of its fields. -/
theorem decodeRequest_part {o : Op} {off : Byte} {b : List Byte} {i : Instr} {k : Nat}
    (hrow : hostCommand o off b = some i) (hb : payloadFits b = true) (hk : k < b.length + 2) :
    decodeRequest (o.code :: (off :: BitVec.ofNat 8 b.length :: b).take k) = .incomplete := by
  simp only [decodeRequest, lookupOp_code, cwClass_code_of_hostCommand hrow, if_true]
  exact decodeFields_take o o.code off hb hk

/-- Settles O48: a nonempty part is the command word and a part of the fields. -/
theorem partOfARequestIsStuck : Obligations.PartOfARequestIsStuck := by
  intro s i k evs hi hwf hpos hlen hp
  obtain ⟨off, b, hrow, henc, hfit⟩ := hi.exists_request
  obtain ⟨k, rfl⟩ := Nat.exists_eq_add_one.mpr hpos
  rw [henc, requestBytes_length] at hlen
  rw [henc, requestBytes, List.take_succ_cons] at hp
  rw [step_bytes hp, decodeRequest_part hrow (hfit ▸ hwf) (by omega)]

/-! ### What each command answers (R135, R137, R139) -/

/-- Settles O28: the two branches of LOADKEY. -/
theorem loadKeyInstallsBothSchedules : Obligations.LoadKeyInstallsBothSchedules :=
  ⟨rfl, exec_loadKey_toList, fun off _ s hlen => execLoadKey_error off hlen s⟩

theorem blockCommand_of_kv_eq_false {s : State} (h : s.kv = false) (dir : Bool) (off : Nat) (b : List Byte) :
    blockCommand dir off b s = .next { s with responses := s.responses ++ [⟨.keyNotLoaded, none⟩] } :=
  blockCommand_noKey (s.kv_eq_false_iff.mp h) dir off b

theorem blockCommand_of_kv_eq_true_short {s : State} {off : Nat} {b : List Byte} (h : s.kv = true)
    (hb : b.length < off + 8) (dir : Bool) :
    blockCommand dir off b s = .next { s with responses := s.responses ++ [⟨.invalidBlockLength, none⟩] } := by
  obtain ⟨ek, dk, hs⟩ := s.kv_eq_true_iff.mp h
  exact blockCommand_short hs dir hb

/-- Settles O30: the three answers of a block command, of which direction 0 selects `EK`. -/
theorem encryptTransformsWithEK : Obligations.EncryptTransformsWithEK := by
  refine ⟨rfl, fun off b s => ⟨fun h => ?_, fun h hb => ?_, fun ek blk h hb => ?_⟩⟩
  · exact blockCommand_of_kv_eq_false h false off.toNat b
  · exact blockCommand_of_kv_eq_true_short h hb false
  · obtain ⟨dk, hs⟩ := (s.ek_eq_some_iff ek).mp h
    exact blockCommand_of_holdsBlock hs hb false

/-- Settles O31: the three answers of a block command, of which direction 1 selects `DK`. -/
theorem decryptTransformsWithDK : Obligations.DecryptTransformsWithDK := by
  refine ⟨rfl, fun off b s => ⟨fun h => ?_, fun h hb => ?_, fun dk blk h hb => ?_⟩⟩
  · exact blockCommand_of_kv_eq_false h true off.toNat b
  · exact blockCommand_of_kv_eq_true_short h hb true
  · obtain ⟨ek, hs⟩ := (s.dk_eq_some_iff dk).mp h
    exact blockCommand_of_holdsBlock hs hb true

end Sys2Proof.Machine

/-!
PROOFS, family 60_exceptions: which status each host command answers with, and what an error leaves unchanged.
-/

namespace Sys2Proof.Machine

/-! ### The status of a response (R151, R152, R157) -/

/-- LOADKEY delivers one response without result bytes, whose status the payload's length decides. -/
theorem exec_loadKey_status_cases (off : Byte) (b : List Byte) (s : State) :
    ∃ t st, exec (.loadKey off b) s = .next t ∧ t.responses = s.responses ++ [⟨st, none⟩] ∧
      (b.length = 16 ∧ st = .ok ∨ b.length ≠ 16 ∧ st = .invalidKeyLength) := by
  by_cases hb : b.length = 16
  · exact ⟨_, _, execLoadKey_ok off hb s, rfl, .inl ⟨hb, rfl⟩⟩
  · exact ⟨_, _, execLoadKey_error off hb s, rfl, .inr ⟨hb, rfl⟩⟩

/-- A block command delivers one response, which `KV` decides first and the unbounded sum `off + 8` second. -/
theorem exec_block_response_cases {i : Instr} {off : Byte} {b : List Byte}
    (hi : i ∈ [Instr.encrypt off b, Instr.decrypt off b]) (s : State) :
    ∃ t r, exec i s = .next t ∧ t.responses = s.responses ++ [r] ∧
      (s.kv = false ∧ r = ⟨.keyNotLoaded, none⟩ ∨
        s.kv = true ∧ b.length < off.toNat + 8 ∧ r = ⟨.invalidBlockLength, none⟩ ∨
        s.kv = true ∧ off.toNat + 8 ≤ b.length ∧ ∃ o, r = ⟨.ok, some o⟩) := by
  obtain ⟨dir, hexec⟩ : ∃ dir, exec i s = blockCommand dir off.toNat b s := by
    rcases List.mem_pair.mp hi with rfl | rfl
    · exact ⟨false, rfl⟩
    · exact ⟨true, rfl⟩
  rw [hexec]
  rcases blockCommand_cases dir off.toNat b s with ⟨hs, h⟩ | ⟨ek, dk, hs, hb, h⟩ | ⟨ek, dk, hb, hs, h⟩
  · exact ⟨_, _, h, rfl, .inl ⟨s.kv_eq_false_iff.mpr hs, rfl⟩⟩
  · exact ⟨_, _, h, rfl, .inr (.inl ⟨s.kv_eq_true_iff.mpr ⟨ek, dk, hs⟩, hb, rfl⟩)⟩
  · exact ⟨_, _, h, rfl, .inr (.inr ⟨s.kv_eq_true_iff.mpr ⟨ek, dk, hs⟩, hb, _, rfl⟩)⟩

/-- Settles O33: with an error the response is the only change `exec_cases` allows, for LOADKEY installs schedules only
when it answers OK. -/
theorem errorsWriteNoState : Obligations.ErrorsWriteNoState := by
  intro i s t r hi h hr herror
  rcases exec_cases i s with ⟨hunit, -⟩ | ⟨-, st, o, he, hok⟩ | ⟨off, b, hb, -, he⟩
  · exact absurd hi hunit
  · obtain rfl := Host.Outcome.next.inj (h.symm.trans he)
    obtain rfl := List.singleton_inj.mp (List.append_cancel_left hr)
    exact ⟨not_imp_comm.mp hok herror, rfl⟩
  · obtain rfl := Host.Outcome.next.inj (h.symm.trans he)
    obtain rfl := List.singleton_inj.mp (List.append_cancel_left hr)
    exact absurd rfl herror

/-- Settles O29: the two lengths of LOADKEY's payload, and the three responses of a block command. -/
theorem invalidKeyLengthExactlyWhenNotSixteenBytes : Obligations.InvalidKeyLengthExactlyWhenNotSixteenBytes := by
  refine ⟨fun off b s => ?_, fun off b s i hi => ?_⟩
  · obtain ⟨t, st, hexec, hresp, hst⟩ := exec_loadKey_status_cases off b s
    refine ⟨t, _, hexec, hresp, ?_⟩
    rcases hst with ⟨hb, rfl⟩ | ⟨hb, rfl⟩ <;> simp [hb]
  · obtain ⟨t, r, hexec, hresp, hr⟩ := exec_block_response_cases hi s
    refine ⟨t, r, hexec, hresp, ?_⟩
    rcases hr with ⟨-, rfl⟩ | ⟨-, -, rfl⟩ | ⟨-, -, o, rfl⟩ <;> simp

/-- Settles O32: the three responses of a block command exclude each other by `KV` and the length, and neither status of
LOADKEY is an error of theirs. -/
theorem blockStatusIsDecidedByKeyThenLength : Obligations.BlockStatusIsDecidedByKeyThenLength := by
  refine ⟨fun off b s => ?_, fun off b s i hi => ?_⟩
  · obtain ⟨t, st, hexec, hresp, hst⟩ := exec_loadKey_status_cases off b s
    refine ⟨t, _, hexec, hresp, ?_⟩
    rcases hst with ⟨-, rfl⟩ | ⟨-, rfl⟩ <;> simp
  · obtain ⟨t, r, hexec, hresp, hr⟩ := exec_block_response_cases hi s
    refine ⟨t, r, hexec, hresp, ?_⟩
    rcases hr with ⟨hkv, rfl⟩ | ⟨hkv, hb, rfl⟩ | ⟨hkv, hb, o, rfl⟩
    · simp [hkv]
    · simp [hkv, hb]
    · simp [hkv, hb]

end Sys2Proof.Machine

/-!
PROOFS, family 70_reset_and_hazards: every instruction completes, reset is the only way to `KV = 0`, and block requests
without a key.
-/

namespace Sys2Proof.Machine

/-! ### Completion (R183, R10) -/

/-- A unit operation completes, and leaves the port and the responses as they are (R63). -/
theorem exec_of_not_hostCommand {i : Instr} (hi : ¬ HostCommand i) (s : State) :
    ∃ t, exec i s = .next t ∧ t.port = s.port ∧ t.responses = s.responses := by
  rcases exec_cases i s with ⟨-, o, he⟩ | ⟨hhost, -⟩ | ⟨off, b, -, rfl, -⟩
  · exact ⟨_, he, rfl, rfl⟩
  · exact absurd hhost hi
  · exact absurd trivial hi

/-- Settles O38: a host command answers once, a unit operation not at all, and neither touches the port. -/
theorem everyInstructionCompletes : Obligations.EveryInstructionCompletes := by
  intro i s
  by_cases hi : HostCommand i
  · obtain ⟨t, r, he, hport, hresp⟩ := exec_hostCommand hi s
    exact ⟨t, he, hport, fun _ => ⟨r, hresp⟩, fun hunit => absurd hi hunit⟩
  · obtain ⟨t, he, hport, hresp⟩ := exec_of_not_hostCommand hi s
    exact ⟨t, he, hport, fun hhost => absurd hhost hi, fun _ => hresp⟩

/-! ### Reset and `KV` (R170, R172) -/

/-- Settles O50: of the three things a step can do to the engine, keeping it keeps `KV`, LOADKEY sets it, and reset alone
clears it. -/
theorem resetIsTheOnlyWayToClearKV : Obligations.ResetIsTheOnlyWayToClearKV := by
  refine ⟨fun s inFlight evs hp => ⟨_, step_reset hp, rfl, rfl, rfl, rfl, rfl, rfl⟩, fun s t hstep hkv hclear => ?_⟩
  rcases step_engine_cases hstep with hsame | ⟨inFlight, evs, hp, -⟩ | ⟨bs, rest, evs, off, key, -, -, rfl⟩
  · rw [State.kv_congr hsame, hkv] at hclear
    contradiction
  · exact ⟨inFlight, evs, hp⟩
  · exact nomatch hclear

/-! ### Block requests without a key (R153, R171, R174) -/

/-- Without a key, ENCRYPT and DECRYPT deliver KeyNotLoaded and do nothing else. -/
theorem exec_block_of_kv_eq_false {i : Instr} {off : Byte} {b : List Byte}
    (hi : i ∈ [Instr.encrypt off b, Instr.decrypt off b]) {s : State} (h : s.kv = false) :
    exec i s = .next { s with responses := s.responses ++ [⟨.keyNotLoaded, none⟩] } := by
  rcases List.mem_pair.mp hi with rfl | rfl
  · exact blockCommand_of_kv_eq_false h false off.toNat b
  · exact blockCommand_of_kv_eq_false h true off.toNat b

/-- A block command whose payload fits the length field can be written as a request (R60). -/
theorem block_hostCommand_wellFormed {i : Instr} {off : Byte} {b : List Byte}
    (hi : i ∈ [Instr.encrypt off b, Instr.decrypt off b]) (hb : b.length ≤ 255) :
    HostCommand i ∧ i.wellFormed = true := by
  rcases List.mem_pair.mp hi with rfl | rfl <;>
    exact ⟨trivial, (payloadFits_iff b).mpr hb⟩

/-- Settles O55: the request reads back as the block command, which runs with the engine as the step found it. -/
theorem withoutAKeyBlockCommandsAnswerKeyNotLoaded : Obligations.WithoutAKeyBlockCommandsAnswerKeyNotLoaded := by
  intro s off b rest evs hkv hb i hi hp
  obtain ⟨hhost, hwf⟩ := block_hostCommand_wellFormed hi hb
  have hkv' : State.kv { s with port := requeue rest evs } = false := hkv
  have hstep := step_command hp (decodeRequest_encode_append rest hhost hwf)
  exact ⟨_, hstep.trans (exec_block_of_kv_eq_false hi hkv'), hkv, rfl⟩

end Sys2Proof.Machine
